-- ==== Sys2Proof/Word.lean ====
section
/-! DEFINITION. The word types of the block: bytes, and the 16-bit registers (spec 00_scope.md R10, R11). -/

namespace Sys2Proof

/-- A byte, the unit of the scratchpad and of every port exchange (R10). -/
abbrev Byte := BitVec 8

/-- A 16-bit value: a voltage channel register, or two bytes read as one number (R11). -/
abbrev Half := BitVec 16

end Sys2Proof
end

