-- ==== Sys2Proof/Machine/Bits.lean ====
section
/-! DEFINITION. Bit fields, byte order and signed readings (00_scope.md R10, R11; 20_memory.md R50). -/

namespace Sys2Proof.Machine

/-- `h[7:0]`. -/
def lowByte (h : Half) : Byte := h.extractLsb' 0 8

/-- `h[15:8]`. -/
def highByte (h : Half) : Byte := h.extractLsb' 8 8

/-- `{hi, lo}`, the two-byte value whose more significant byte is `hi` (R10). -/
def joinBytes (hi lo : Byte) : Half := hi ++ lo

/-- `s8(b)`: a byte read as two's complement (R11). -/
def s8 (b : Byte) : Int := b.toInt

/-- `s16(h)`: a 16-bit value read as two's complement (R11). -/
def s16 (h : Half) : Int := h.toInt

/-- `bits16(i)`: the 16-bit two's-complement pattern of an integer (R11). -/
def bits16 (i : Int) : Half := BitVec.ofInt 16 i

/-- `clamp(x, lo, hi) = min(max(x, lo), hi)` on integers (R10). -/
def clampInt (x lo hi : Int) : Int := min (max x lo) hi

/-- `clamp(x, lo, hi) = min(max(x, lo), hi)` on rationals (R10). -/
def clampRat (x lo hi : Rat) : Rat := min (max x lo) hi

/-- `trunc(x)`: a rational rounded toward zero (R10). -/
def truncRat (x : Rat) : Int := x.num.tdiv x.den

end Sys2Proof.Machine
end

