-- ==== Sys2Proof/Syntax.lean ====
section
/-! DEFINITION. The bus commands, one constructor per row of spec/opcode_table.json (30_encoding.md R77). -/

namespace Sys2Proof

/-- A decoded bus command with its operands: the command byte of the unrecognised case, the page index byte `P` of
the formats CP, CPR and CPW (R72 to R74). The data bytes of WRSP and the answers to the sends of RDSP are no operands:
each is a port exchange of its own, in a step of its own (40_commands.md R102; notes/assumptions/16.md). -/
inductive Instr where
  /-- Convert Temperature, 0x44 (R114). -/
  | convt
  /-- Copy Scratchpad, 0x48 (R112). -/
  | cpsp (page : Byte)
  /-- Write Scratchpad, 0x4E (R111). -/
  | wrsp (page : Byte)
  /-- Convert Voltage, 0xB4 (R115). -/
  | convv
  /-- Recall Memory, 0xB8 (R113). -/
  | recallMem (page : Byte)
  /-- Read Scratchpad, 0xBE (R110). -/
  | rdsp (page : Byte)
  /-- An unrecognised command byte (R116). -/
  | cmd (code : Byte)
  deriving DecidableEq, Repr

end Sys2Proof
end

