-- ==== Sys2Proof/WellFormed.lean ====
section
/-! DEFINITION. Which terms of `Instr` some byte stream encodes (30_encoding.md R77 to R80). -/

namespace Sys2Proof

/-- The six assigned command bytes (R77). -/
def assignedOpcodes : List Byte := [0x44#8, 0x48#8, 0x4E#8, 0xB4#8, 0xB8#8, 0xBE#8]

/-- An unrecognised command carries a byte outside the six assigned ones (R77, R79); every page index byte is an
encodable operand, valid or not (R75). -/
def Instr.wellFormed : Instr → Bool
  | .cmd code => !assignedOpcodes.contains code
  | .convt | .convv | .cpsp _ | .recallMem _ | .rdsp _ | .wrsp _ => true

end Sys2Proof
end

