-- ==== Sys2Proof/Decode.lean ====
section
/-! DEFINITION. Decoding and encoding of bus commands (30_encoding.md R70 to R81). The byte stream is the bytes of one
transaction, the command byte first (R70). Decoding depends on nothing but the bytes (40_commands.md R105). -/

namespace Sys2Proof

/-- The four commands that take a page index (formats CP, CPR, CPW; R72 to R74): the `c` of the phase `IDX(c)`. -/
inductive PagedCommand where
  | rdsp
  | wrsp
  | cpsp
  | recallMem
  deriving DecidableEq, Repr

/-- What a command byte alone selects (R77): a command that is complete, or one whose page index is still to come. -/
inductive Command where
  | complete (i : Instr)
  | paged (c : PagedCommand)
  deriving DecidableEq, Repr

/-- Why a byte stream is no instruction: it ends too early. No byte value is ever rejected (R78). -/
inductive DecodeReject where
  /-- There is no command byte. -/
  | noCommandByte
  /-- The page index byte of this command is missing. -/
  | noPageIndex (c : PagedCommand)
  deriving DecidableEq, Repr

/-- The command byte of a paged command (R77). -/
def PagedCommand.opcode : PagedCommand → Byte
  | .rdsp => 0xBE#8
  | .wrsp => 0x4E#8
  | .cpsp => 0x48#8
  | .recallMem => 0xB8#8

/-- The instruction that a paged command and its page index byte make (R75). -/
def PagedCommand.instr : PagedCommand → Byte → Instr
  | .rdsp => .rdsp
  | .wrsp => .wrsp
  | .cpsp => .cpsp
  | .recallMem => .recallMem

/-- The opcode map: the full eight bits select the command, every unassigned value the unrecognised one (R77, R78). -/
def decodeCommand (b : Byte) : Command :=
  if b = 0x44#8 then .complete .convt
  else if b = 0xB4#8 then .complete .convv
  else if b = 0x48#8 then .paged .cpsp
  else if b = 0x4E#8 then .paged .wrsp
  else if b = 0xB8#8 then .paged .recallMem
  else if b = 0xBE#8 then .paged .rdsp
  else .complete (.cmd b)

/-- Decode the first instruction of a byte stream and give the bytes after it (R70, R78, R81). -/
def decode : List Byte → Except DecodeReject (Instr × List Byte)
  | [] => .error .noCommandByte
  | b :: rest =>
    match decodeCommand b with
    | .complete i => .ok (i, rest)
    | .paged c =>
      match rest with
      | [] => .error (.noPageIndex c)
      | p :: rest' => .ok (c.instr p, rest')

/-- The bytes of an instruction, host to block, in the order of the wire (R71, R72; the first two bytes of R73, R74). -/
def encode : Instr → List Byte
  | .convt => [0x44#8]
  | .convv => [0xB4#8]
  | .cpsp p => [0x48#8, p]
  | .recallMem p => [0xB8#8, p]
  | .rdsp p => [0xBE#8, p]
  | .wrsp p => [0x4E#8, p]
  | .cmd c => [c]

/-- The bytes of `w`, the first of the wire from its low bits, as many as the longest transaction takes (2 + 8 for
Write Scratchpad, R74); every bit from `nbits` up is 0. -/
def tableBytes (nbits w : Nat) : List Byte :=
  (List.range 10).map fun i => BitVec.ofNat 8 (w % 2 ^ nbits / 2 ^ (8 * i))

/-- The instruction the decoder reads from the bits `w`, numbered as spec/opcode_table.json numbers them. -/
def decodeTableWord (nbits w : Nat) : Option Instr :=
  match decode (tableBytes nbits w) with
  | .ok (i, _) => some i
  | .error _ => none

end Sys2Proof
end

