-- ==== Sys2Proof/Config.lean ====
section
/-! DEFINITION. The implementation parameters (00_scope.md R7 to R9), fixed for one instance of the block. -/

namespace Sys2Proof

/-- Which function `CRC8_FN` is (R9, 92_eei_decisions.md D20): the spec's default, or one supplied from outside, of which
nothing is known. DESIGN CHOICE: a name stands for the function, so that a configuration is plain data
(notes/assumptions/9.md). -/
inductive ChecksumFn where
  /-- The default of 41_memory_store.md R140. -/
  | standard
  /-- An externally supplied function, told from the others by a number. -/
  | external (id : Nat)
  deriving DecidableEq, Repr

/-- The externally supplied checksum functions, 8 bits over a list of bytes (R6, R9). Open: no body, so that what is
proved of `external id` holds whatever function it is (notes/assumptions/9.md). -/
opaque Config.externalCrc8 : Nat → List Byte → Byte

/-- One configuration of the block. No operation changes it (10_state.md R43; notes/assumptions/4.md). -/
structure Config where
  /-- `PAGE_COUNT`, the number of scratchpad pages (R7). -/
  pageCount : Nat
  /-- `FACTORY_IMAGE`, the `MEM_SIZE` bytes loaded at reset (R9). -/
  factoryImage : List Byte
  /-- `VAD_RESET` (R9). -/
  vadReset : Half
  /-- `VDD_RESET` (R9). -/
  vddReset : Half
  /-- `TEMP_LSB_MASK` (R9). -/
  tempLsbMask : Byte
  /-- `CRC8_FN`; its default is `standard` (R9, 41_memory_store.md R140). -/
  crcFn : ChecksumFn
  /-- `FAMILY_CODE`, read by no rule (R9, 10_state.md R38). -/
  familyCode : Byte
  /-- `SERIAL`, read by no rule (R9, 10_state.md R38). -/
  serial : Vector Byte 7
  /-- DESIGN CHOICE, the model's own parameter: the unspecified content of the spare checksum slot
  (10_state.md R21; notes/assumptions/7.md). -/
  spareCrc : Byte
  deriving DecidableEq, Repr

/-- `MEM_SIZE = PAGE_COUNT * 8` (R8). -/
def Config.memSize (c : Config) : Nat := c.pageCount * 8

/-- The admitted page counts (R7). -/
def Config.pageCountOk (c : Config) : Bool := 1 ≤ c.pageCount && c.pageCount ≤ 8

/-- The factory image has `MEM_SIZE` bytes (R9, 70_reset_and_hazards.md R228). -/
def Config.imageOk (c : Config) : Bool := c.factoryImage.length == c.memSize

/-- A configuration the spec admits. -/
def Config.ok (c : Config) : Bool := c.pageCountOk && c.imageOk

end Sys2Proof
end

