-- ==== Sys2Proof/Machine/Checksum.lean ====
section
/-! DEFINITION. The checksum function `CRC8_FN`, a parameter, and its default (41_memory_store.md R140). PRESUMED: the
spec takes the default from general knowledge (93_implementation_defined.md G1; notes/assumptions/9.md). -/

namespace Sys2Proof.Machine

/-- One round of the inner loop of R140: shift the checksum right, with 0x8C mixed in when the low bits differ. -/
def crcBit (crc b : Byte) : Byte :=
  if (crc ^^^ b) &&& 0x01#8 = 0x01#8 then (crc >>> 1) ^^^ 0x8C#8 else crc >>> 1

/-- `n` rounds of the inner loop; the data byte shifts right after each (R140). -/
def crcBits : Nat → Byte → Byte → Byte
  | 0, crc, _ => crc
  | n + 1, crc, b => crcBits n (crcBit crc b) (b >>> 1)

/-- One round of the outer loop: a whole byte, least significant bit first (R140). -/
def crcByte (crc b : Byte) : Byte := crcBits 8 crc b

/-- The default of `CRC8_FN(bytes)`: initial value 0, the bytes in list order, no final XOR (R140). -/
def crc8Default (bytes : List Byte) : Byte := bytes.foldl crcByte 0x00#8

/-- `CRC8_FN(bytes)` of a configuration (R140, 00_scope.md R6, R9). -/
def crc8Fn (c : Config) (bytes : List Byte) : Byte :=
  match c.crcFn with
  | .standard => crc8Default bytes
  | .external id => Config.externalCrc8 id bytes

end Sys2Proof.Machine
end

