-- ==== Sys2Proof/Machine/Reset.lean ====
section
/-! DEFINITION. What reset leaves, as functions of the configuration (70_reset_and_hazards.md R220 to R226). -/

namespace Sys2Proof.Machine

/-- The byte at scratchpad address `a` right after reset: the factory image, with the configuration byte patched
(R220, R221). -/
def resetByte (c : Config) (a : Nat) : Byte :=
  if a = 0 then (c.factoryImage.getD 0 0#8 &&& 0x84#8) ||| 0x0B#8 else c.factoryImage.getD a 0#8

/-- The checksum cache right after reset: every page's checksum, computed after the patch, then the spare slot, which
reset does not compute (R222, R223). -/
def resetChecksums (c : Config) : List Byte :=
  (List.range c.pageCount).map (fun p => crc8Fn c ((List.range' (8 * p) 8).map (resetByte c))) ++ [c.spareCrc]

/-- DESIGN CHOICE: the reference configuration, T0 of 95_test_vectors.md section 1 (notes/assumptions/5.md), with
identity data the spec gives no value for (notes/assumptions/6.md) and a zero spare slot (notes/assumptions/7.md). -/
def referenceConfig : Config where
  pageCount := 2
  factoryImage := List.replicate 16 0x00#8
  vadReset := 0x0000#16
  vddReset := 0x0000#16
  tempLsbMask := 0xFF#8
  crcFn := .standard
  familyCode := 0x26#8
  serial := Vector.replicate 7 0x00#8
  spareCrc := 0x00#8

end Sys2Proof.Machine
end

