-- ==== Sys2Proof/Machine/Memory.lean ====
section
/-! DEFINITION. The scratchpad as plain data: a list of (address, byte) cells in one canonical form. An unlisted
address reads as the byte reset left there (70_reset_and_hazards.md R220, R221; notes/assumptions/8.md). -/

namespace Sys2Proof.Machine

/-- The cells that differ from the reset contents, addresses strictly rising. -/
abbrev Memory := List Host.Cell

/-- The byte listed for an address, if any. -/
def Memory.find (a : Nat) : Memory → Option Byte
  | [] => none
  | (x, b) :: m => if x = a then some b else Memory.find a m

/-- `MEM[a]`: the listed byte, else the reset contents. -/
def Memory.read (c : Config) (m : Memory) (a : Nat) : Byte := (Memory.find a m).getD (resetByte c a)

/-- Remove every cell of an address. -/
def Memory.erase (a : Nat) (m : Memory) : Memory := m.filter fun cell => cell.1 ≠ a

/-- Insert a cell before the first cell of a higher address. -/
def Memory.insert (a : Nat) (b : Byte) : Memory → Memory
  | [] => [(a, b)]
  | (x, v) :: m => if a < x then (a, b) :: (x, v) :: m else (x, v) :: Memory.insert a b m

/-- `MEM[a] <- b`, keeping the canonical form: a byte equal to the reset contents is not listed. -/
def Memory.write (c : Config) (m : Memory) (a : Nat) (b : Byte) : Memory :=
  if b = resetByte c a then Memory.erase a m else Memory.insert a b (Memory.erase a m)

/-- The canonical form: addresses strictly rising and inside the scratchpad, no cell equal to the reset contents. -/
def Memory.wf (c : Config) : Memory → Bool
  | [] => true
  | (a, b) :: m => m.all (fun cell => a < cell.1) && a < c.memSize && b ≠ resetByte c a && Memory.wf c m

end Sys2Proof.Machine
end

