-- ==== Sys2Proof/Machine/State.lean ====
section
/-! DEFINITION. The state of the block (10_state.md R43), what its ports take in and show (R40 to R42), and the
reasons a step can stop. -/

namespace Sys2Proof.Machine

/-- The dispatcher phase register (10_state.md R36): which byte of the transaction comes next. -/
inductive Phase where
  /-- `IDLE`: no transaction in progress. -/
  | idle
  /-- `CMD`: the command byte is awaited. -/
  | cmd
  /-- `IDX(c)`: the page index of command `c` is awaited. -/
  | idx (c : PagedCommand)
  /-- `RD(p, k)`: Read Scratchpad of page `p` is about to send byte `k`; byte 8 is the checksum. -/
  | rd (page : Byte) (k : Fin 9)
  /-- `WR(p, k)`: Write Scratchpad of page `p` awaits the data byte for offset `k`. -/
  | wr (page : Byte) (k : Fin 8)
  deriving DecidableEq, Repr

/-- The transport's answer to `Recv()` (10_state.md R40). -/
inductive RecvAnswer where
  | byte (b : Byte)
  | fail
  deriving DecidableEq, Repr

/-- The transport's answer to `Send(b)` (10_state.md R40). -/
inductive SendAnswer where
  | ok
  | fail
  deriving DecidableEq, Repr

/-- The operand of `setTemperatureReal`: a rational, or what a floating-point caller can hold that is none
(42_quantity_codec.md R160, 92_eei_decisions.md D6). -/
inductive RealOperand where
  | rational (x : Rat)
  | notRational
  deriving DecidableEq, Repr

/-- The application-port operations with their operands (10_state.md R42). An operand is the number the caller hands
over; the widths of the port are checked by the operation (60_exceptions.md R207). -/
inductive AppOp where
  | setTemperatureReal (x : RealOperand)
  | setTemperatureInt (n : Int)
  | getTemperature
  | setVADVoltage (v : Int)
  | getVADVoltage
  | setVDDVoltage (v : Int)
  | getVDDVoltage
  | setCurrent (i : Int)
  | getCurrent
  | readRange (pos len : Nat)
  | writeRange (pos : Nat) (bytes : List Byte)
  | checksumOf (page : Nat)
  deriving DecidableEq, Repr

/-- What an application-port operation returns. -/
inductive AppResult where
  /-- A setter returns nothing. -/
  | done
  /-- A getter's number. -/
  | number (v : Int)
  /-- The bytes of `readRange`, and whether the requested length was satisfied. -/
  | bytes (data : List Byte) (full : Bool)
  /-- `writeRange` succeeded; whether all bytes were written. -/
  | written (full : Bool)
  /-- `FAILED`: the position is out of range. -/
  | failed
  /-- A cached checksum. -/
  | checksum (b : Byte)
  deriving DecidableEq, Repr

/-- One thing the outside does to the block (10_state.md R40, R42). -/
inductive Input where
  /-- The transport begins a transaction. -/
  | start
  /-- The transport answers a `Recv()`. -/
  | recv (a : RecvAnswer)
  /-- The transport answers a `Send(b)`. -/
  | send (a : SendAnswer)
  /-- The application invokes an operation. -/
  | app (op : AppOp)
  deriving DecidableEq, Repr

/-- One thing the block's ports show (40_commands.md R101). -/
inductive Event where
  /-- A `Recv()` and its answer. -/
  | recv (a : RecvAnswer)
  /-- A `Send(b)`, the byte offered, and its answer. -/
  | send (b : Byte) (a : SendAnswer)
  /-- `ReportError(c)` (10_state.md R41). -/
  | report (c : Byte)
  /-- An application-port operation and its result. -/
  | app (op : AppOp) (r : AppResult)
  deriving DecidableEq, Repr

/-- The state of the block. -/
structure State where
  /-- The configuration of this instance; no operation changes it (R43; notes/assumptions/4.md). -/
  cfg : Config
  /-- `MEM` (R20). -/
  mem : Memory
  /-- `CRC`, `PAGE_COUNT` cached checksums and the spare slot (R21). -/
  crc : List Byte
  /-- `VAD_REG` (R34). -/
  vadReg : Half
  /-- `VDD_REG` (R35). -/
  vddReg : Half
  /-- `phase` (R36). -/
  phase : Phase
  /-- DESIGN CHOICE, the model's own: what the outside does next, oldest first (notes/assumptions/1.md). -/
  inputs : List Input
  /-- DESIGN CHOICE, the model's own: what the ports have shown, oldest first (notes/assumptions/3.md). -/
  trace : List Event
  deriving DecidableEq, Repr

/-- Why the machine stops with a fault. The spec itself calls for none (93_implementation_defined.md, Part 1). -/
inductive Fault where
  /-- Raised by an access to a page outside `0 .. PAGE_COUNT - 1`, an address the spec says does not exist
  (20_memory.md R58, R59). Safe: no state that a step reaches from reset raises it (notes/assumptions/13.md). -/
  | noSuchPage (page : Nat)
  deriving DecidableEq, Repr

/-- Why a step has no meaning. -/
inductive Refusal where
  /-- Raised by `exec` for an instruction that has no meaning yet. No arm raises it. Safe. -/
  | notModelled (mnemonic : String)
  /-- Raised by `exec` in a phase for which R117 has no row for the instruction; `step` never raises it.
  Safe (notes/assumptions/12.md). -/
  | outOfPhase
  /-- Raised by `step` for `START` while `phase` is not `IDLE` (R206, R207). Safe: the spec asks for it. -/
  | startWhileBusy
  /-- Raised by `step` for an application-port operation while `phase` is not `IDLE` (R206, R207). Safe: the spec asks
  for it. -/
  | applicationWhileBusy
  /-- Raised by `step` when `PAGE_COUNT` is outside 1 .. 8 (R7, R207). Safe: the spec asks for it. -/
  | pageCountOutOfRange
  /-- Raised by `step` when the factory image has not `MEM_SIZE` bytes (R228). Safe (notes/assumptions/14.md). -/
  | imageLengthWrong
  /-- Raised by `checksumOf` for a page number `>= PAGE_COUNT` (R145, R207). Safe: the spec asks for it. -/
  | checksumPageOutOfRange
  /-- Raised by the voltage setters outside 0 .. 65535 (R165, R167, R207). Safe: the spec asks for it. -/
  | voltageOutOfRange
  /-- Raised by `setCurrent` outside -32768 .. 32767 (R170, R207). Safe: the spec asks for it. -/
  | currentOutOfRange
  /-- Raised by `setTemperatureReal` for an operand that is no rational (R160, R207). Safe: the spec asks for it. -/
  | temperatureNotRational
  deriving DecidableEq, Repr

/-- The state right after reset under a configuration (70_reset_and_hazards.md R220 to R226). -/
def State.resetWith (c : Config) : State where
  cfg := c
  mem := []
  crc := resetChecksums c
  vadReg := c.vadReset
  vddReg := c.vddReset
  phase := .idle
  inputs := []
  trace := []

/-- The state right after reset under the reference configuration (notes/assumptions/5.md). -/
def State.reset : State := State.resetWith referenceConfig

end Sys2Proof.Machine
end

