-- ==== Sys2Proof/Machine/Ops.lean ====
section
/-! DEFINITION. The named operations over the state: the pseudocode primitives of 00_scope.md R12, the checksum
recomputation (41_memory_store.md R141) and the abort (40_commands.md R103), which is all this block has in place of
an exception (60_exceptions.md R200, R210). -/

namespace Sys2Proof.Machine

/-- The three outcomes of a step of this machine. -/
abbrev Result := Host.Outcome State Fault Refusal

/-- `MEM[a]` (R12, R20). -/
def State.readByte (s : State) (a : Nat) : Byte := Memory.read s.cfg s.mem a

/-- `MEM[a] <- b` (R12). -/
def State.writeByte (s : State) (a : Nat) (b : Byte) : State := { s with mem := Memory.write s.cfg s.mem a b }

/-- `MemRead(a, n)`: the bytes at `a .. a+n-1`, ascending (R12). -/
def State.readBytes (s : State) (a n : Nat) : List Byte := (List.range' a n).map s.readByte

/-- The bytes of a list to `MEM[a]`, `MEM[a+1]`, ... in list order (R12, 41_memory_store.md R144). -/
def State.writeBytes (s : State) (a : Nat) : List Byte → State
  | [] => s
  | b :: bs => (s.writeByte a b).writeBytes (a + 1) bs

/-- `MemRead(a, 2)` as a number: the less significant byte at the lower address (R12, 20_memory.md R50). -/
def State.readHalf (s : State) (a : Nat) : Half := joinBytes (s.readByte (a + 1)) (s.readByte a)

/-- `MemWrite(a, 2, h)`: the less significant byte to the lower address (R12, 20_memory.md R50). -/
def State.writeHalf (s : State) (a : Nat) (h : Half) : State :=
  (s.writeByte a (lowByte h)).writeByte (a + 1) (highByte h)

/-- The eight bytes of page `p`, ascending (10_state.md R20). -/
def State.pageBytes (s : State) (p : Nat) : List Byte := s.readBytes (8 * p) 8

/-- `CRC[p]`, the cached checksum (R12, R21). -/
def State.checksum (s : State) (p : Nat) : Byte := s.crc.getD p 0#8

/-- `Recompute(p)` (41_memory_store.md R141). -/
def State.recompute (s : State) (p : Nat) : State := { s with crc := s.crc.set p (crc8Fn s.cfg (s.pageBytes p)) }

/-- `Recompute` of the `n` pages from `p` up (41_memory_store.md R144). -/
def State.recomputePages (s : State) (p : Nat) : Nat → State
  | 0 => s
  | n + 1 => (s.recompute p).recomputePages (p + 1) n

/-- `VAD_REG <- h` (R34). -/
def State.setVad (s : State) (h : Half) : State := { s with vadReg := h }

/-- `VDD_REG <- h` (R35). -/
def State.setVdd (s : State) (h : Half) : State := { s with vddReg := h }

/-- `phase <- ph` (R12, R36). -/
def State.setPhase (s : State) (ph : Phase) : State := { s with phase := ph }

/-- The outside's next act has happened: it leaves the queue (notes/assumptions/1.md). -/
def State.takeInput (s : State) : State := { s with inputs := s.inputs.tail }

/-- A port shows an event (40_commands.md R101; notes/assumptions/3.md). -/
def State.emit (s : State) (e : Event) : State := { s with trace := s.trace ++ [e] }

/-- A `Recv()` exchange takes place with the answer `a` (R12, R40). -/
def State.received (s : State) (a : RecvAnswer) : State := s.takeInput.emit (.recv a)

/-- A `Send(b)` exchange takes place with the answer `a` (R12, R40). -/
def State.sent (s : State) (b : Byte) (a : SendAnswer) : State := s.takeInput.emit (.send b a)

/-- `ReportError(c)` (R12, R41). -/
def State.reportError (s : State) (c : Byte) : State := s.emit (.report c)

/-- The application port returns the result of an operation (R42). -/
def State.answer (s : State) (op : AppOp) (r : AppResult) : State := s.emit (.app op r)

/-- The end of a transaction, complete or aborted: `phase <- IDLE`, every write made so far kept, nothing reported
(`abort` of R12, 40_commands.md R103). -/
def State.endTransaction (s : State) : State := s.setPhase .idle

/-- Run `k` when page `p` exists; an access to a page that does not is a fault (20_memory.md R59). -/
def withPage (p : Nat) (s : State) (k : State → Result) : Result :=
  if p < s.cfg.pageCount then k s else .fault (.noSuchPage p)

/-- Run `k` in the phase `ph`; in any other phase R117 has no row (notes/assumptions/12.md). -/
def inPhase (ph : Phase) (s : State) (k : State → Result) : Result :=
  if s.phase = ph then k s else .refused .outOfPhase

end Sys2Proof.Machine
end

