-- ==== Sys2Proof/Machine/Codec.lean ====
section
/-! DEFINITION. The quantity codec: the pure encode and decode functions, then the application-port operations over
them (42_quantity_codec.md R160 to R173). -/

namespace Sys2Proof.Machine

/-- `encTempReal(x)`, as (low byte, high byte) (R160). -/
def encTempReal (mask : Byte) (x : Rat) : Byte × Byte :=
  let h := bits16 (truncRat (clampRat x (-55) 125 * 256))
  (lowByte h &&& mask, highByte h)

/-- `encTempInt(n)`, as (low byte, high byte) (R161). -/
def encTempInt (n : Int) : Byte × Byte := (0x00#8, BitVec.ofInt 8 (clampInt n (-55) 125))

/-- `encVolt(v)` (R164). -/
def encVolt (v : Half) : Half :=
  let m : BitVec 10 := v.extractLsb' 0 10
  (0b000000#6 ++ m.extractLsb' 8 2) ++ m.extractLsb' 0 8

/-- `decVolt(r)` (R164). -/
def decVolt (r : Half) : BitVec 10 := (joinBytes (highByte r) (lowByte r) &&& 0x3FF#16).setWidth 10

/-- `encCurrent(i)`, as (low byte, high byte) (R170; 90_conflicts.md C1). -/
def encCurrent (i : Int) : Byte × Byte :=
  let h := bits16 i
  (lowByte h, (if i < 0 then 0b111111#6 else 0b000000#6) ++ h.extractLsb' 8 2)

/-- `decCurrent(lo, hi)` (R171). -/
def decCurrent (lo hi : Byte) : Int := s16 (joinBytes hi lo)

/-- The temperature register `T16`, in 1/256 °C (R163). -/
def State.temperature16 (s : State) : Int := s16 (s.readHalf 1)

/-- Two bytes, low then high, to a page 0 register, then `Recompute(0)` (R160, R161, R170). -/
def State.storeMeasurement (s : State) (a : Nat) (bytes : Byte × Byte) : State :=
  ((s.writeByte a bytes.1).writeByte (a + 1) bytes.2).recompute 0

/-- `setTemperatureReal(x)`; an operand that is no rational is refused (R160, R207). -/
def setTemperatureReal (x : RealOperand) (s : State) : Result :=
  match x with
  | .rational q => withPage 0 s fun s =>
    .next ((s.storeMeasurement 1 (encTempReal s.cfg.tempLsbMask q)).answer (.setTemperatureReal x) .done)
  | .notRational => .refused .temperatureNotRational

/-- `setTemperatureInt(n)` (R161). -/
def setTemperatureInt (n : Int) (s : State) : Result :=
  withPage 0 s fun s => .next ((s.storeMeasurement 1 (encTempInt n)).answer (.setTemperatureInt n) .done)

/-- `getTemperature()` (R162). -/
def getTemperature (s : State) : Result :=
  withPage 0 s fun s => .next (s.answer .getTemperature (.number (s8 (s.readByte 2))))

/-- Run `k` on a voltage operand of the port's width, u16; any other is refused (R165, R167, R207). -/
def withVoltage (v : Int) (k : Half → Result) : Result :=
  if 0 ≤ v ∧ v ≤ 65535 then k (bits16 v) else .refused .voltageOutOfRange

/-- `setVADVoltage(v)` (R165). -/
def setVADVoltage (v : Int) (s : State) : Result :=
  withVoltage v fun h => .next ((s.setVad (encVolt h)).answer (.setVADVoltage v) .done)

/-- `getVADVoltage()` (R166). -/
def getVADVoltage (s : State) : Result := .next (s.answer .getVADVoltage (.number (decVolt s.vadReg).toNat))

/-- `setVDDVoltage(v)` (R167). -/
def setVDDVoltage (v : Int) (s : State) : Result :=
  withVoltage v fun h => .next ((s.setVdd (encVolt h)).answer (.setVDDVoltage v) .done)

/-- `getVDDVoltage()` (R168). -/
def getVDDVoltage (s : State) : Result := .next (s.answer .getVDDVoltage (.number (decVolt s.vddReg).toNat))

/-- `setCurrent(i)`; an operand outside s16 is refused (R170, R207). -/
def setCurrent (i : Int) (s : State) : Result :=
  if -32768 ≤ i ∧ i ≤ 32767 then
    withPage 0 s fun s => .next ((s.storeMeasurement 5 (encCurrent i)).answer (.setCurrent i) .done)
  else .refused .currentOutOfRange

/-- `getCurrent()` (R171). -/
def getCurrent (s : State) : Result :=
  withPage 0 s fun s => .next (s.answer .getCurrent (.number (decCurrent (s.readByte 5) (s.readByte 6))))

end Sys2Proof.Machine
end

