-- ==== Sys2Proof/Machine/Store.lean ====
section
/-! DEFINITION. The application-port operations of the paged memory store (41_memory_store.md R143 to R145). -/

namespace Sys2Proof.Machine

/-- How many of `len` bytes from `pos` lie inside the scratchpad (R143, R144). -/
def State.fitting (s : State) (pos len : Nat) : Nat := min len (s.cfg.memSize - pos)

/-- `Recompute` of every page that the bytes `pos .. pos+n-1` touch; none when `n = 0` (R144). -/
def State.recomputeTouched (s : State) (pos n : Nat) : State :=
  if n = 0 then s else s.recomputePages (pos >>> 3) (((pos + n - 1) >>> 3) - (pos >>> 3) + 1)

/-- `readRange(pos, len)` (R143). -/
def readRange (pos len : Nat) (s : State) : Result :=
  if s.cfg.memSize ≤ pos then .next (s.answer (.readRange pos len) .failed)
  else
    let n := s.fitting pos len
    .next (s.answer (.readRange pos len) (.bytes (s.readBytes pos n) (n == len)))

/-- `writeRange(pos, bytes)`, not subject to the read-only range (R144). -/
def writeRange (pos : Nat) (bytes : List Byte) (s : State) : Result :=
  if s.cfg.memSize ≤ pos then .next (s.answer (.writeRange pos bytes) .failed)
  else
    let n := s.fitting pos bytes.length
    .next (((s.writeBytes pos (bytes.take n)).recomputeTouched pos n).answer (.writeRange pos bytes)
      (.written (n == bytes.length)))

/-- `checksumOf(p)`, the cached value; a page number out of range is refused (R145, R207). -/
def checksumOf (p : Nat) (s : State) : Result :=
  if p < s.cfg.pageCount then .next (s.answer (.checksumOf p) (.checksum (s.checksum p)))
  else .refused .checksumPageOutOfRange

end Sys2Proof.Machine
end

