-- ==== Sys2Proof/Machine/Application.lean ====
section
/-! DEFINITION. The application port: one operation, one atomic step (10_state.md R42, 20_memory.md R55). -/

namespace Sys2Proof.Machine

/-- The meaning of each application-port operation (R42). -/
def execApp (op : AppOp) (s : State) : Result :=
  match op with
  | .setTemperatureReal x => setTemperatureReal x s
  | .setTemperatureInt n => setTemperatureInt n s
  | .getTemperature => getTemperature s
  | .setVADVoltage v => setVADVoltage v s
  | .getVADVoltage => getVADVoltage s
  | .setVDDVoltage v => setVDDVoltage v s
  | .getVDDVoltage => getVDDVoltage s
  | .setCurrent i => setCurrent i s
  | .getCurrent => getCurrent s
  | .readRange pos len => readRange pos len s
  | .writeRange pos bytes => writeRange pos bytes s
  | .checksumOf p => checksumOf p s

end Sys2Proof.Machine
end

