-- ==== Sys2Proof/Machine/Flags.lean ====
section
/-! DEFINITION. The flags of the configuration byte `MEM[0]` (10_state.md R23 to R31) and the one operation that reads
one of them (R27). Every bit is stored exactly as last written; no operation sets or clears one by itself. -/

namespace Sys2Proof.Machine

/-- The configuration byte (R23). -/
def State.configByte (s : State) : Byte := s.readByte 0

/-- IAD, bit 0 (R24). -/
def State.iad (s : State) : Bool := s.configByte.getLsbD 0

/-- CA, bit 1 (R25). -/
def State.ca (s : State) : Bool := s.configByte.getLsbD 1

/-- EE, bit 2 (R26). -/
def State.ee (s : State) : Bool := s.configByte.getLsbD 2

/-- AD, bit 3: set selects the battery channel (R27). -/
def State.ad (s : State) : Bool := s.configByte.getLsbD 3

/-- TB, bit 4 (R28). -/
def State.tb (s : State) : Bool := s.configByte.getLsbD 4

/-- NVB, bit 5 (R29). -/
def State.nvb (s : State) : Bool := s.configByte.getLsbD 5

/-- ADB, bit 6 (R30). -/
def State.adb (s : State) : Bool := s.configByte.getLsbD 6

/-- The unnamed bit 7 (R31). -/
def State.configBit7 (s : State) : Bool := s.configByte.getLsbD 7

/-- The channel register that AD selects (R27, 40_commands.md R115). -/
def State.selectedVoltage (s : State) : Half := if s.ad then s.vddReg else s.vadReg

end Sys2Proof.Machine
end

