-- ==== Sys2Proof/Machine/Convert.lean ====
section
/-! DEFINITION. Convert Temperature and Convert Voltage, executed in the step that receives the command byte
(40_commands.md R104, R114, R115). -/

namespace Sys2Proof.Machine

/-- CONVT: `Recompute(0)` (R114). -/
def execConvt (s : State) : Result :=
  inPhase .cmd s fun s => withPage 0 s fun s => .next (s.recompute 0).endTransaction

/-- CONVV: the selected channel register to `MEM[3..4]`, as stored, then `Recompute(0)` (R115). -/
def execConvv (s : State) : Result :=
  inPhase .cmd s fun s => withPage 0 s fun s =>
    .next ((s.writeHalf 3 s.selectedVoltage).recompute 0).endTransaction

end Sys2Proof.Machine
end

