-- ==== Sys2Proof/Machine/Operands.lean ====
section
/-! DEFINITION. The operands of the commands: the page index, the addresses it forms, the phases that follow
(30_encoding.md R75, 10_state.md R33, 40_commands.md R106, R107, R110, R111). -/

namespace Sys2Proof.Machine

/-- A page index byte is valid when it names a page of this block (R75). -/
def State.pageValid (s : State) (p : Byte) : Bool := p.toNat < s.cfg.pageCount

/-- The scratchpad address of byte `k` of page `p` (10_state.md R20). -/
def byteAddress (p : Byte) (k : Nat) : Nat := 8 * p.toNat + k

/-- The addresses that Write Scratchpad may not change (10_state.md R33; the absolute address, 90_conflicts.md C3). -/
def readOnlyToBus (a : Nat) : Bool := 1 ≤ a && a ≤ 6

/-- Write Scratchpad's store: a byte to a read-only address is consumed and discarded (R111). -/
def State.storeFromBus (s : State) (a : Nat) (b : Byte) : State := if readOnlyToBus a then s else s.writeByte a b

/-- The byte `k` of the response to Read Scratchpad: a page byte, and last the cached checksum (R110). -/
def State.responseByte (s : State) (p : Byte) (k : Fin 9) : Byte :=
  if k.val < 8 then s.readByte (byteAddress p k.val) else s.checksum p.toNat

/-- The phase after byte `k` of the response is sent (R110). -/
def nextSendPhase (p : Byte) (k : Fin 9) : Phase := if h : k.val < 8 then .rd p ⟨k.val + 1, by omega⟩ else .idle

/-- The index step: a valid page index leads to the command's next phase, any other ends the transaction with no
write and no report (R106, R107). -/
def selectPage (p : Byte) (next : Phase) (s : State) : Result :=
  if s.pageValid p then .next (s.setPhase next) else .next s.endTransaction

end Sys2Proof.Machine
end

