-- ==== Sys2Proof/Machine/Persistence.lean ====
section
/-! DEFINITION. Copy Scratchpad and Recall Memory: the index step and no further effect, there being no backing store
(40_commands.md R112, R113). Executed in the step that receives the page index. -/

namespace Sys2Proof.Machine

/-- CPSP (R112). -/
def execCpsp (p : Byte) (s : State) : Result := inPhase (.idx .cpsp) s (selectPage p .idle)

/-- RECALL (R113). -/
def execRecall (p : Byte) (s : State) : Result := inPhase (.idx .recallMem) s (selectPage p .idle)

end Sys2Proof.Machine
end

