-- ==== Sys2Proof/Machine/Scratchpad.lean ====
section
/-! DEFINITION. Read Scratchpad and Write Scratchpad: the index step, then one port exchange a step
(40_commands.md R102, R106, R110, R111). -/

namespace Sys2Proof.Machine

/-- One step of the send phase `RD(p, k)`: offer byte `k`; a failed send ends the transaction (R110). While the
transport has not answered, the block waits (notes/assumptions/2.md). -/
def sendStep (p : Byte) (k : Fin 9) (s : State) : Result :=
  match s.inputs with
  | .send .ok :: _ => .next ((s.sent (s.responseByte p k) .ok).setPhase (nextSendPhase p k))
  | .send .fail :: _ => .next (s.sent (s.responseByte p k) .fail).endTransaction
  | _ => .next s

/-- One step of the data phase `WR(p, k)`: receive the byte for offset `k`; the checksum is recomputed in the step
that ends the phase, after offset 7 or by a receive failure (R111). While the transport has not answered, the block
waits (notes/assumptions/2.md). -/
def dataStep (p : Byte) (k : Fin 8) (s : State) : Result :=
  match s.inputs with
  | .recv (.byte b) :: _ =>
    let stored := (s.received (.byte b)).storeFromBus (byteAddress p k.val) b
    if h : k.val < 7 then .next (stored.setPhase (.wr p ⟨k.val + 1, by omega⟩))
    else .next (stored.recompute p.toNat).endTransaction
  | .recv .fail :: _ => .next ((s.received .fail).recompute p.toNat).endTransaction
  | _ => .next s

/-- RDSP: the index step in `IDX(0xBE)`, then a send in each phase `RD(p, k)` (R106, R110). -/
def execRdsp (p : Byte) (s : State) : Result :=
  match s.phase with
  | .rd q k => inPhase (.rd p k) s fun s => withPage q.toNat s (sendStep p k)
  | _ => inPhase (.idx .rdsp) s (selectPage p (.rd p 0))

/-- WRSP: the index step in `IDX(0x4E)`, then a receive in each phase `WR(p, k)` (R106, R111). -/
def execWrsp (p : Byte) (s : State) : Result :=
  match s.phase with
  | .wr q k => inPhase (.wr p k) s fun s => withPage q.toNat s (dataStep p k)
  | _ => inPhase (.idx .wrsp) s (selectPage p (.wr p 0))

end Sys2Proof.Machine
end

