-- ==== Sys2Proof/Machine/Unrecognised.lean ====
section
/-! DEFINITION. The unrecognised command (40_commands.md R116). -/

namespace Sys2Proof.Machine

/-- CMD c: exactly one error report carrying the command byte, no other effect (R116). Executed in the step that
receives the command byte. -/
def execCmd (code : Byte) (s : State) : Result :=
  inPhase .cmd s fun s => .next (s.reportError code).endTransaction

end Sys2Proof.Machine
end

