-- ==== Sys2Proof/Machine/Dispatch.lean ====
section
/-! DEFINITION. The meaning of every bus command, one arm per row of spec/opcode_table.json. -/

namespace Sys2Proof.Machine

def exec (i : Instr) (s : State) : Host.Outcome State Fault Refusal :=
  match i with
  | .convt => Sys2Proof.Machine.execConvt s
  | .cpsp p => Sys2Proof.Machine.execCpsp p s
  | .wrsp p => Sys2Proof.Machine.execWrsp p s
  | .convv => Sys2Proof.Machine.execConvv s
  | .recallMem p => Sys2Proof.Machine.execRecall p s
  | .rdsp p => Sys2Proof.Machine.execRdsp p s
  | .cmd c => Sys2Proof.Machine.execCmd c s

end Sys2Proof.Machine
end

