-- ==== Sys2Proof/Machine/Sequencer.lean ====
section
/-! DEFINITION. The transaction state machine: which exchange each phase asks for, how an instruction is fetched byte by
byte, and what the outside's acts do in each phase (40_commands.md R100 to R108, R117; 60_exceptions.md R206, R207). -/

namespace Sys2Proof.Machine

/-- The `CMD` step: the command byte is received; a command it completes is executed in this step, one that takes a page
index goes to `IDX(c)`; a failure aborts (R104). -/
def fetchCommand (a : RecvAnswer) (s : State) : Result :=
  match a with
  | .fail => .next (s.received a).endTransaction
  | .byte b =>
    match decodeCommand b with
    | .complete i => exec i (s.received a)
    | .paged c => .next ((s.received a).setPhase (.idx c))

/-- The `IDX(c)` step: the page index is received, which completes the instruction; a failure aborts (R106). -/
def fetchIndex (c : PagedCommand) (a : RecvAnswer) (s : State) : Result :=
  match a with
  | .fail => .next (s.received a).endTransaction
  | .byte p => exec (c.instr p) (s.received a)

/-- `START`, accepted only in `IDLE` (R40, R100, R206). -/
def startStep (s : State) : Result :=
  if s.phase = .idle then .next (s.takeInput.setPhase .cmd) else .refused .startWhileBusy

/-- An application-port operation, accepted only in `IDLE` (R42, R206). -/
def appStep (op : AppOp) (s : State) : Result :=
  if s.phase = .idle then execApp op s.takeInput else .refused .applicationWhileBusy

/-- The transport answers a `Recv()`. In `CMD`, `IDX(c)` and `WR(p, k)` it answers the exchange asked for; in the other
phases the block asks for no byte, and the byte is the transport's, not seen by the block (R117, 30_encoding.md R82,
R120; notes/assumptions/11.md). -/
def recvStep (a : RecvAnswer) (s : State) : Result :=
  match s.phase with
  | .cmd => fetchCommand a s
  | .idx c => fetchIndex c a s
  | .wr p _ => exec (.wrsp p) s
  | .idle | .rd _ _ => .next s.takeInput

/-- The transport answers a `Send(b)`, which only `RD(p, k)` asks for (R117; notes/assumptions/11.md). -/
def sendAnswerStep (s : State) : Result :=
  match s.phase with
  | .rd p _ => exec (.rdsp p) s
  | .idle | .cmd | .idx _ | .wr _ _ => .next s.takeInput

/-- One step of a block whose configuration is admitted: the next act of the outside happens; with none pending the
block waits (60_exceptions.md R208, R217; notes/assumptions/2.md). -/
def portStep (s : State) : Result :=
  match s.inputs with
  | [] => .next s
  | .start :: _ => startStep s
  | .app op :: _ => appStep op s
  | .recv a :: _ => recvStep a s
  | .send _ :: _ => sendAnswerStep s

/-- One step; a configuration that is not admitted has none (R7, R207, R228; notes/assumptions/14.md). -/
def blockStep (s : State) : Result :=
  if !s.cfg.pageCountOk then .refused .pageCountOutOfRange
  else if !s.cfg.imageOk then .refused .imageLengthWrong
  else portStep s

/-- The state in which the very next step receives the byte that completes the instruction whose bytes are given: a
transaction is under way, the command byte of a paged command has been received (notes/assumptions/15.md). -/
def placeInstruction (bytes : List Byte) (s : State) : State :=
  match bytes with
  | [] => s
  | b :: rest =>
    match decodeCommand b with
    | .complete _ => { s with phase := .cmd, inputs := (b :: rest).map fun x => .recv (.byte x) }
    | .paged c => { s with phase := .idx c, inputs := rest.map fun x => .recv (.byte x) }

end Sys2Proof.Machine
end

