-- ==== Sys2Proof/Machine/Step.lean ====
section
/-! DEFINITION. The step function of the machine and the placing of an instruction where the next step fetches it. -/

namespace Sys2Proof.Machine

/-- One step of the block (00_scope.md R13, 40_commands.md R102). -/
def step (s : State) : Host.Outcome State Fault Refusal := blockStep s

/-- The state with the instruction of the bits `w` placed where the next step fetches it (notes/assumptions/15.md). -/
def State.withFetchWord (s : State) (nbits w : Nat) : State := placeInstruction (tableBytes nbits w) s

end Sys2Proof.Machine
end

