-- ==== Sys2Proof/Machine/Transaction.lean ====
section
/-! DEFINITION. Whole transactions in the notation of 30_encoding.md R83: the bytes and answers the transport gives, what
the ports show, and the effect as ONE change of state, written from the command rules and not from the step function.
`step` does not use this file; claims compare the two. -/

namespace Sys2Proof.Machine

/-- A transaction (R83). -/
inductive Transaction where
  /-- `CONVT`. -/
  | convt
  /-- `CONVV`. -/
  | convv
  /-- `CMD c`. -/
  | cmd (c : Byte)
  /-- `CPSP P`. -/
  | cpsp (p : Byte)
  /-- `RECALL P`. -/
  | recallMem (p : Byte)
  /-- `RDSP P`, or `RDSP P !FAIL@k`. -/
  | rdsp (p : Byte) (failAt : Option (Fin 9))
  /-- `WRSP P, D0, ..., Dn-1`. -/
  | wrsp (p : Byte) (data : List Byte)
  /-- `CMD !FAIL`: the receive of the command byte fails. -/
  | commandFail
  /-- `RDSP !FAIL` and its like: the receive of the page index fails. -/
  | indexFail (c : PagedCommand)
  deriving DecidableEq, Repr

/-- An unrecognised command carries no assigned code (R77), a write at most eight bytes (R74). -/
def Transaction.wellFormed : Transaction → Bool
  | .cmd c => !assignedOpcodes.contains c
  | .wrsp _ data => data.length ≤ 8
  | .convt | .convv | .cpsp _ | .recallMem _ | .rdsp _ _ | .commandFail | .indexFail _ => true

/-- The `Recv()` answers that give these bytes. -/
def byteAnswers (bs : List Byte) : List RecvAnswer := bs.map .byte

/-- The answers to the `Recv()`s of a transaction, in order, on a block of `pages` pages (R81, R83). -/
def Transaction.recvAnswers (pages : Nat) : Transaction → List RecvAnswer
  | .convt => byteAnswers [0x44#8]
  | .convv => byteAnswers [0xB4#8]
  | .cmd c => byteAnswers [c]
  | .cpsp p => byteAnswers [0x48#8, p]
  | .recallMem p => byteAnswers [0xB8#8, p]
  | .rdsp p _ => byteAnswers [0xBE#8, p]
  | .wrsp p data =>
    byteAnswers [0x4E#8, p] ++
      if p.toNat < pages then byteAnswers data ++ if data.length < 8 then [.fail] else [] else []
  | .commandFail => [.fail]
  | .indexFail c => byteAnswers [c.opcode] ++ [.fail]

/-- The answers to the nine `Send(b)`s of a read, the last given one a failure when there is one (R110). -/
def sendAnswers : Option (Fin 9) → List SendAnswer
  | none => List.replicate 9 .ok
  | some k => List.replicate k.val .ok ++ [.fail]

/-- The answers to the `Send(b)`s of a transaction, in order (R81, R83). -/
def Transaction.sendAnswers (pages : Nat) : Transaction → List SendAnswer
  | .rdsp p failAt => if p.toNat < pages then Machine.sendAnswers failAt else []
  | .convt | .convv | .cmd _ | .cpsp _ | .recallMem _ | .wrsp _ _ | .commandFail | .indexFail _ => []

/-- Everything the transport does in a transaction after `START`: all receives come before all sends (R117). -/
def Transaction.answers (pages : Nat) (t : Transaction) : List Input :=
  (t.recvAnswers pages).map .recv ++ (t.sendAnswers pages).map .send

/-- The response bytes of a read, in the order of the wire: the page, then the cached checksum (R73). -/
def State.responseBytes (s : State) (p : Byte) : List Byte := s.pageBytes p.toNat ++ [s.checksum p.toNat]

/-- What the ports show of a transaction that begins in the state `s` (R101). -/
def Transaction.events (s : State) (t : Transaction) : List Event :=
  (t.recvAnswers s.cfg.pageCount).map .recv ++
    match t with
    | .rdsp p _ => List.zipWith .send (s.responseBytes p) (t.sendAnswers s.cfg.pageCount)
    | .cmd c => [.report c]
    | .convt | .convv | .cpsp _ | .recallMem _ | .wrsp _ _ | .commandFail | .indexFail _ => []

/-- The data bytes of a write to page `p` from offset `k` on, those for read-only addresses discarded (R111). -/
def State.storeData (s : State) (p : Byte) (k : Nat) : List Byte → State
  | [] => s
  | b :: bs => (s.storeFromBus (byteAddress p k) b).storeData p (k + 1) bs

/-- What a transaction does to the scratchpad and the checksums (R110 to R116). -/
def Transaction.effect (s : State) : Transaction → State
  | .convt => s.recompute 0
  | .convv => (s.writeHalf 3 s.selectedVoltage).recompute 0
  | .wrsp p data => if p.toNat < s.cfg.pageCount then (s.storeData p 0 data).recompute p.toNat else s
  | .cmd _ | .cpsp _ | .recallMem _ | .rdsp _ _ | .commandFail | .indexFail _ => s

/-- The state after a whole transaction: its effect, its events shown, the given acts of the outside still to come. -/
def Transaction.after (s : State) (rest : List Input) (t : Transaction) : State :=
  { t.effect s with phase := .idle, inputs := rest, trace := s.trace ++ t.events s }

end Sys2Proof.Machine
end

