-- ==== Sys2Proof/Safety.lean ====
section
/-! DEFINITION. The terms claims use: the well-formed and the coherent states, what is left of a transaction, the error
situations, the host's check. -/

namespace Sys2Proof.Machine

/-- The page of a phase exists (10_state.md R36). -/
def Phase.pageOk (pages : Nat) : Phase → Bool
  | .rd p _ | .wr p _ => p.toNat < pages
  | .idle | .cmd | .idx _ => true

/-- The page a Write Scratchpad is in the middle of, if any (R22). -/
def Phase.writing : Phase → Option Nat
  | .wr p _ => some p.toNat
  | .idle | .cmd | .idx _ | .rd _ _ => none

/-- The shape of the state: an admitted configuration, a slot for every page and the spare one, the memory in its
canonical form, a phase whose page exists (R7, R20, R21, R36). -/
def State.wf (s : State) : Bool :=
  s.cfg.ok && s.crc.length == s.cfg.pageCount + 1 && Memory.wf s.cfg s.mem && s.phase.pageOk s.cfg.pageCount

/-- The cached checksum of page `p` is that of its bytes (R22). -/
abbrev State.fresh (s : State) (p : Nat) : Prop := s.checksum p = crc8Fn s.cfg (s.pageBytes p)

/-- The checksum invariant in every phase: only a page in the middle of a write may be stale (R22). -/
abbrev State.coherent (s : State) : Prop := ∀ p, p < s.cfg.pageCount → s.phase.writing ≠ some p → s.fresh p

/-- The invariant of the block. -/
abbrev State.Inv (s : State) : Prop := s.wf = true ∧ s.coherent

/-- At most how many exchanges are left in a transaction (40_commands.md R118). -/
def Phase.exchangesLeft : Phase → Nat
  | .idle => 0
  | .cmd => 11
  | .idx .rdsp => 10
  | .idx .wrsp => 9
  | .idx .cpsp | .idx .recallMem => 1
  | .rd _ k => 9 - k.val
  | .wr _ k => 8 - k.val

/-- The input answers the exchange the phase asks for (R117). -/
def Phase.asksFor : Phase → Input → Bool
  | .cmd, .recv _ | .idx _, .recv _ | .wr _ _, .recv _ | .rd _ _, .send _ => true
  | _, _ => false

/-- The acts of the bus side, as against those of the application (60_exceptions.md R212). -/
def Input.fromBus : Input → Bool
  | .start | .recv _ | .send _ => true
  | .app _ => false

/-- The operands the application port admits (60_exceptions.md R207). -/
def AppOp.admitted (pages : Nat) : AppOp → Bool
  | .setTemperatureReal x => x ≠ .notRational
  | .setVADVoltage v | .setVDDVoltage v => 0 ≤ v && v ≤ 65535
  | .setCurrent i => -32768 ≤ i && i ≤ 32767
  | .checksumOf p => p < pages
  | .setTemperatureInt _ | .getTemperature | .getVADVoltage | .getVDDVoltage | .getCurrent | .readRange _ _
  | .writeRange _ _ => true

/-- `n` steps, stopping at the first fault or refusal. -/
def State.run : Nat → State → Result
  | 0, s => .next s
  | n + 1, s =>
    match step s with
    | .next t => t.run n
    | .fault f => .fault f
    | .refused f => .refused f

/-- A run of a transaction on the answers `r n` and `a n` to the exchange with `n` exchanges of fuel left: each step gets
the answer its phase asks for; the run ends in `IDLE` (40_commands.md R118). -/
def State.driven (r : Nat → RecvAnswer) (a : Nat → SendAnswer) : Nat → State → Result
  | 0, s => .next s
  | n + 1, s =>
    match s.phase with
    | .idle => .next s
    | .rd _ _ =>
      match step { s with inputs := [.send (a n)] } with
      | .next t => t.driven r a n
      | .fault f => .fault f
      | .refused f => .refused f
    | .cmd | .idx _ | .wr _ _ =>
      match step { s with inputs := [.recv (r n)] } with
      | .next t => t.driven r a n
      | .fault f => .fault f
      | .refused f => .refused f

/-- The error situations, E1 to E4 (60_exceptions.md R201). -/
inductive ErrorSituation where
  /-- E1, outside the data phase of Write Scratchpad. -/
  | transportFailure
  /-- E2. -/
  | indexOutOfRange
  /-- E3. -/
  | unrecognisedCommand (c : Byte)
  /-- E4. -/
  | partialWrite
  deriving DecidableEq, Repr

/-- The error situation the next step is in, if any (R201, R205). -/
def State.errorSituation (s : State) : Option ErrorSituation :=
  match s.phase, s.inputs with
  | .cmd, .recv .fail :: _ | .idx _, .recv .fail :: _ | .rd _ _, .send .fail :: _ => some .transportFailure
  | .wr _ _, .recv .fail :: _ => some .partialWrite
  | .idx _, .recv (.byte p) :: _ => if s.pageValid p then none else some .indexOutOfRange
  | .cmd, .recv (.byte c) :: _ => if assignedOpcodes.contains c then none else some (.unrecognisedCommand c)
  | _, _ => none

/-- The host's check of a response: the checksum function over the page bytes and the checksum byte (R146). -/
def hostCheck (c : Config) (response : List Byte) : Bool := crc8Fn c response == 0x00#8

/-- How many error reports a trace holds (R116, R205). -/
def reportCount (trace : List Event) : Nat :=
  trace.countP fun e => match e with
    | .report _ => true
    | .recv _ | .send _ _ | .app _ _ => false

/-- The state with other content in what nothing observes: the spare checksum slot and the identity data
(10_state.md R21, R38, R44). -/
def State.withUnobserved (s : State) (spare family : Byte) (serial : Vector Byte 7) : State :=
  { s with crc := s.crc.set s.cfg.pageCount spare, cfg := { s.cfg with familyCode := family, serial := serial } }

/-- The outcome with the same change made to its next state. -/
def mapNext (f : State → State) : Result → Result
  | .next s => .next (f s)
  | .fault r => .fault r
  | .refused r => .refused r

end Sys2Proof.Machine
end

