-- ==== Sys2Proof/Certificates/Slice0/Obligations.lean ====
section
/-! DEFINITION. The statements for the provers, from the numbered rules of the spec. -/

open Sys2Proof Sys2Proof.Machine

/-! ### Encoding -/

/-- One word of every command, written out from the table of 30_encoding.md section 4, decodes to its command; a stream
that ends too early is rejected by name. -/
def Obligations.WordsOfEveryCommandDecode : Prop :=
  decode [0x44#8] = .ok (.convt, []) ∧
  decode [0xB4#8] = .ok (.convv, []) ∧
  decode [0x48#8, 0x01#8] = .ok (.cpsp 0x01#8, []) ∧
  decode [0xB8#8, 0x00#8] = .ok (.recallMem 0x00#8, []) ∧
  decode [0xBE#8, 0xFF#8] = .ok (.rdsp 0xFF#8, []) ∧
  decode [0x4E#8, 0x01#8, 0x11#8, 0x22#8] = .ok (.wrsp 0x01#8, [0x11#8, 0x22#8]) ∧
  decode [0x33#8] = .ok (.cmd 0x33#8, []) ∧
  decode [0x4F#8, 0x00#8] = .ok (.cmd 0x4F#8, [0x00#8]) ∧
  decode [] = .error .noCommandByte ∧
  decode [0xBE#8] = .error (.noPageIndex .rdsp)

/-- Every well-formed instruction, with every page index byte and every unrecognised code, decodes to itself from its
own bytes, whatever bytes follow (30_encoding.md sections 2 to 4). -/
def Obligations.EncodedInstructionDecodesToItself : Prop :=
  ∀ (i : Instr) (rest : List Byte), i.wellFormed = true → decode (encode i ++ rest) = .ok (i, rest)

/-- What the decoder accepts is a well-formed instruction, and the bytes it took are that instruction's encoding: no two
byte streams of one instruction (30_encoding.md sections 2 to 4). -/
def Obligations.DecodedInstructionEncodesToItsBytes : Prop :=
  ∀ (bytes rest : List Byte) (i : Instr), decode bytes = .ok (i, rest) →
    i.wellFormed = true ∧ encode i ++ rest = bytes

/-- R78: decoding is total, the six assigned values are distinct, the 250 others select the unrecognised command, and the
byte after the command byte never changes which command was selected. -/
def Obligations.EveryCommandByteSelectsOneRow : Prop :=
  assignedOpcodes.Nodup ∧
  ((List.range 256).filter fun n => !assignedOpcodes.contains (BitVec.ofNat 8 n)).length = 250 ∧
  ∀ (b p : Byte) (rest : List Byte),
    (b ∉ assignedOpcodes → decode (b :: rest) = .ok (.cmd b, rest)) ∧
    (b = 0x44#8 → decode (b :: rest) = .ok (.convt, rest)) ∧
    (b = 0xB4#8 → decode (b :: rest) = .ok (.convv, rest)) ∧
    (b = 0x48#8 → decode (b :: p :: rest) = .ok (.cpsp p, rest)) ∧
    (b = 0xB8#8 → decode (b :: p :: rest) = .ok (.recallMem p, rest)) ∧
    (b = 0xBE#8 → decode (b :: p :: rest) = .ok (.rdsp p, rest)) ∧
    (b = 0x4E#8 → decode (b :: p :: rest) = .ok (.wrsp p, rest))

/-! ### The step and the transaction framework -/

/-- A step runs the decoded instruction. When the byte the transport gives completes an instruction (the command byte in
`CMD`, the page index in `IDX(c)`), the step is `exec` of that instruction on the state in which the byte has been
received; in the phases of the page data the step is `exec` of the command under way. That a step is one exchange is the spec's own
decision (92_eei_decisions.md D1, D2). -/
def Obligations.StepRunsTheDecodedInstruction : Prop :=
  ∀ (s : State) (rest : List Input), s.cfg.ok = true →
    (∀ (b : Byte) (i : Instr), s.phase = .cmd → s.inputs = .recv (.byte b) :: rest → decode [b] = .ok (i, []) →
      step s = exec i { s with inputs := rest, trace := s.trace ++ [.recv (.byte b)] }) ∧
    (∀ (c : PagedCommand) (p : Byte) (i : Instr), s.phase = .idx c → s.inputs = .recv (.byte p) :: rest →
      decode [c.opcode, p] = .ok (i, []) →
      step s = exec i { s with inputs := rest, trace := s.trace ++ [.recv (.byte p)] }) ∧
    (∀ (p : Byte) (k : Fin 9) (a : SendAnswer), s.phase = .rd p k → s.inputs = .send a :: rest →
      step s = exec (.rdsp p) s) ∧
    (∀ (p : Byte) (k : Fin 8) (a : RecvAnswer), s.phase = .wr p k → s.inputs = .recv a :: rest →
      step s = exec (.wrsp p) s)

/-- R104: the whole step of the phase `CMD`, for a failed receive and for every command byte. -/
def Obligations.CommandPhaseStepFollowsItsByte : Prop :=
  ∀ (s : State) (rest : List Input), s.cfg.ok = true → s.phase = .cmd →
    (s.inputs = .recv .fail :: rest →
      step s = .next { s with phase := .idle, inputs := rest, trace := s.trace ++ [.recv .fail] }) ∧
    (∀ b : Byte, s.inputs = .recv (.byte b) :: rest →
      step s = .next (
        let r : State := { s with inputs := rest, trace := s.trace ++ [.recv (.byte b)] }
        if b = 0xBE#8 then { r with phase := .idx .rdsp }
        else if b = 0x4E#8 then { r with phase := .idx .wrsp }
        else if b = 0x48#8 then { r with phase := .idx .cpsp }
        else if b = 0xB8#8 then { r with phase := .idx .recallMem }
        else if b = 0x44#8 then { r.recompute 0 with phase := .idle }
        else if b = 0xB4#8 then
          { ((r.writeByte 3 ((if (s.readByte 0).getLsbD 3 then s.vddReg else s.vadReg).extractLsb' 0 8)).writeByte 4
              ((if (s.readByte 0).getLsbD 3 then s.vddReg else s.vadReg).extractLsb' 8 8)).recompute 0
            with phase := .idle }
        else { r with phase := .idle, trace := s.trace ++ [.recv (.byte b), .report b] }))

/-- R106 and R107: the whole step of the phase `IDX(c)`. A page index at or above `PAGE_COUNT` ends the transaction at
once for all four commands, with no write and no report. -/
def Obligations.IndexPhaseStepChecksThePage : Prop :=
  ∀ (s : State) (c : PagedCommand) (rest : List Input), s.cfg.ok = true → s.phase = .idx c →
    (s.inputs = .recv .fail :: rest →
      step s = .next { s with phase := .idle, inputs := rest, trace := s.trace ++ [.recv .fail] }) ∧
    (∀ p : Byte, s.inputs = .recv (.byte p) :: rest → s.cfg.pageCount ≤ p.toNat →
      step s = .next { s with phase := .idle, inputs := rest, trace := s.trace ++ [.recv (.byte p)] }) ∧
    (∀ p : Byte, s.inputs = .recv (.byte p) :: rest → p.toNat < s.cfg.pageCount →
      step s = .next { s with
        phase := (match c with
          | .rdsp => .rd p 0
          | .wrsp => .wr p 0
          | .cpsp | .recallMem => .idle)
        inputs := rest
        trace := s.trace ++ [.recv (.byte p)] })

/-- `START` and the application-port operations take place only in `IDLE`; in any other phase they are refused
(60_exceptions.md section 2; the refusal is the spec's own decision, 92_eei_decisions.md D13). -/
def Obligations.PortsAreServedOnlyWhenIdle : Prop :=
  ∀ (s : State) (rest : List Input), s.cfg.ok = true →
    (s.inputs = .start :: rest →
      step s = if s.phase = .idle then .next { s with phase := .cmd, inputs := rest } else .refused .startWhileBusy) ∧
    (∀ op : AppOp, s.inputs = .app op :: rest →
      step s = if s.phase = .idle then execApp op { s with inputs := rest } else .refused .applicationWhileBusy)

/-- Every refusal 60_exceptions.md section 2 asks of a model; each is the spec's own decision (92_eei_decisions.md D6, D9,
D10, D13, D15, D17). -/
def Obligations.InputsWithoutMeaningAreRefused : Prop :=
  (∀ s : State, ¬(1 ≤ s.cfg.pageCount ∧ s.cfg.pageCount ≤ 8) → step s = .refused .pageCountOutOfRange) ∧
  ∀ (s : State) (rest : List Input), s.cfg.ok = true →
    (s.phase = .idle →
      (∀ p : Nat, s.inputs = .app (.checksumOf p) :: rest → s.cfg.pageCount ≤ p →
        step s = .refused .checksumPageOutOfRange) ∧
      (∀ v : Int, s.inputs = .app (.setVADVoltage v) :: rest ∨ s.inputs = .app (.setVDDVoltage v) :: rest →
        (v < 0 ∨ 65535 < v) → step s = .refused .voltageOutOfRange) ∧
      (∀ i : Int, s.inputs = .app (.setCurrent i) :: rest → (i < -32768 ∨ 32767 < i) →
        step s = .refused .currentOutOfRange) ∧
      (s.inputs = .app (.setTemperatureReal .notRational) :: rest → step s = .refused .temperatureNotRational)) ∧
    (s.phase ≠ .idle →
      (s.inputs = .start :: rest → step s = .refused .startWhileBusy) ∧
      (∀ op : AppOp, s.inputs = .app op :: rest → step s = .refused .applicationWhileBusy))

/-- No refusal beyond those of 60_exceptions.md section 2, and no fault: from every state of the right shape, a step answers a
next state unless the outside starts a transaction or calls the application port in the middle of a transaction, or hands
the application port an operand it does not admit. MODEL'S CHOICE in two cases: that a step also answers with nothing
pending (notes/assumptions/2.md) and for an answer the phase did not ask for (notes/assumptions/11.md). -/
def Obligations.EveryAdmittedInputIsServed : Prop :=
  ∀ s : State, s.wf = true →
    (∀ rest, s.inputs = .start :: rest → s.phase = .idle) →
    (∀ op rest, s.inputs = .app op :: rest → s.phase = .idle ∧ op.admitted s.cfg.pageCount = true) →
    ∃ t, step s = .next t

/-- MODEL'S CHOICE (notes/assumptions/2.md, 11.md): with nothing pending the block waits unchanged; an answer to an
exchange the phase does not ask for is dropped and changes nothing else. -/
def Obligations.UnaskedAnswersChangeNothing : Prop :=
  ∀ s : State, s.cfg.ok = true →
    (s.inputs = [] → step s = .next s) ∧
    (∀ (inp : Input) (rest : List Input), s.inputs = inp :: rest → inp.fromBus = true → inp ≠ .start →
      s.phase.asksFor inp = false → step s = .next { s with inputs := rest })

/-- MODEL'S CHOICE (notes/assumptions/12.md, 13.md): where `exec` stops. A command in a phase for which the transition
table has no row is refused; a page that does not exist is a fault. -/
def Obligations.CommandsOutsideTheirPhaseStop : Prop :=
  ∀ (s : State) (p c : Byte),
    (s.phase ≠ .cmd →
      exec .convt s = .refused .outOfPhase ∧ exec .convv s = .refused .outOfPhase ∧
      exec (.cmd c) s = .refused .outOfPhase) ∧
    (s.phase ≠ .idx .cpsp → exec (.cpsp p) s = .refused .outOfPhase) ∧
    (s.phase ≠ .idx .recallMem → exec (.recallMem p) s = .refused .outOfPhase) ∧
    (s.phase ≠ .idx .rdsp → (∀ k, s.phase ≠ .rd p k) → exec (.rdsp p) s = .refused .outOfPhase) ∧
    (s.phase ≠ .idx .wrsp → (∀ k, s.phase ≠ .wr p k) → exec (.wrsp p) s = .refused .outOfPhase) ∧
    (s.cfg.pageCount ≤ p.toNat →
      (∀ k, s.phase = .rd p k → exec (.rdsp p) s = .fault (.noSuchPage p.toNat)) ∧
      (∀ k, s.phase = .wr p k → exec (.wrsp p) s = .fault (.noSuchPage p.toNat)))

/-! ### What each command does -/

/-- CONVT completes in `CMD`: the checksum of page 0 becomes that of its bytes, the transaction ends, and nothing else
changes: no byte, no flag, no other checksum. -/
def Obligations.ConvertTemperatureRecomputesPageZero : Prop :=
  ∀ s : State, s.cfg.ok = true → s.crc.length = s.cfg.pageCount + 1 → s.phase = .cmd →
    ∃ t, exec .convt s = .next t ∧ t.phase = .idle ∧ t.checksum 0 = crc8Fn s.cfg (s.pageBytes 0) ∧
      (∀ q, q ≠ 0 → t.checksum q = s.checksum q) ∧ (∀ a, t.readByte a = s.readByte a) ∧
      t.vadReg = s.vadReg ∧ t.vddReg = s.vddReg ∧ t.cfg = s.cfg ∧ t.inputs = s.inputs ∧ t.trace = s.trace

/-- CONVV completes in `CMD`: the channel register that AD selects is copied as stored, low byte to address 3 and high
byte to address 4, the checksum of page 0 is recomputed over the new bytes, and nothing else changes. -/
def Obligations.ConvertVoltageCopiesTheSelectedChannel : Prop :=
  ∀ s : State, s.cfg.ok = true → s.crc.length = s.cfg.pageCount + 1 → s.phase = .cmd →
    ∃ t, exec .convv s = .next t ∧ t.phase = .idle ∧
      t.readByte 3 = BitVec.ofNat 8 (if s.ad then s.vddReg else s.vadReg).toNat ∧
      t.readByte 4 = BitVec.ofNat 8 ((if s.ad then s.vddReg else s.vadReg).toNat / 256) ∧
      (∀ a, a ≠ 3 → a ≠ 4 → t.readByte a = s.readByte a) ∧
      t.checksum 0 = crc8Fn t.cfg (t.pageBytes 0) ∧ (∀ q, q ≠ 0 → t.checksum q = s.checksum q) ∧
      t.vadReg = s.vadReg ∧ t.vddReg = s.vddReg ∧ t.cfg = s.cfg ∧ t.inputs = s.inputs ∧ t.trace = s.trace

/-- CPSP and RECALL complete in their index phase with no effect whatever, for a valid and for an invalid page index
alike: only the transaction ends. -/
def Obligations.CopyAndRecallHaveNoEffect : Prop :=
  ∀ (s : State) (p : Byte),
    (s.phase = .idx .cpsp → exec (.cpsp p) s = .next { s with phase := .idle }) ∧
    (s.phase = .idx .recallMem → exec (.recallMem p) s = .next { s with phase := .idle })

/-- RDSP: a valid page index leads to the first send, an invalid one ends the transaction; in `RD(p, k)` the block offers
`MEM[8p+k]` for `k < 8` and the cached checksum for `k = 8`, goes on after `OK` and ends the transaction after the last
byte or a failed send. Nothing but the phase and the exchange changes. That the bytes are sent one by one is the spec's own
decision (92_eei_decisions.md D12). -/
def Obligations.ReadScratchpadSendsPageThenChecksum : Prop :=
  ∀ (s : State) (p : Byte),
    (s.phase = .idx .rdsp →
      exec (.rdsp p) s = .next { s with phase := if p.toNat < s.cfg.pageCount then .rd p 0 else .idle }) ∧
    (∀ (k j : Fin 9) (rest : List Input), p.toNat < s.cfg.pageCount → s.phase = .rd p k → k.val < 8 →
      j.val = k.val + 1 → s.inputs = .send .ok :: rest →
      exec (.rdsp p) s = .next { s with
        phase := .rd p j
        inputs := rest
        trace := s.trace ++ [.send (s.readByte (8 * p.toNat + k.val)) .ok] }) ∧
    (∀ rest : List Input, p.toNat < s.cfg.pageCount → s.phase = .rd p 8 → s.inputs = .send .ok :: rest →
      exec (.rdsp p) s = .next { s with
        phase := .idle
        inputs := rest
        trace := s.trace ++ [.send (s.checksum p.toNat) .ok] }) ∧
    (∀ (k : Fin 9) (rest : List Input), p.toNat < s.cfg.pageCount → s.phase = .rd p k →
      s.inputs = .send .fail :: rest →
      exec (.rdsp p) s = .next { s with
        phase := .idle
        inputs := rest
        trace := s.trace ++
          [.send (if k.val < 8 then s.readByte (8 * p.toNat + k.val) else s.checksum p.toNat) .fail] })

/-- WRSP: a valid page index leads to the first receive, an invalid one ends the transaction; in `WR(p, k)` the byte
received is stored at `8p+k` unless that address is 1 to 6; after offset 7 or a failed receive the checksum of page `p`
becomes that of its bytes and the transaction ends; before that the checksum is left. No other byte, checksum, register
or report changes. -/
def Obligations.WriteScratchpadStoresThenRecomputes : Prop :=
  ∀ (s : State) (p : Byte),
    (s.phase = .idx .wrsp →
      exec (.wrsp p) s = .next { s with phase := if p.toNat < s.cfg.pageCount then .wr p 0 else .idle }) ∧
    (∀ (k : Fin 8) (rest : List Input), p.toNat < s.cfg.pageCount → s.crc.length = s.cfg.pageCount + 1 →
      s.phase = .wr p k →
      (∀ b : Byte, s.inputs = .recv (.byte b) :: rest →
        ∃ t, exec (.wrsp p) s = .next t ∧
          (∀ a, t.readByte a =
            if a = 8 * p.toNat + k.val ∧ ¬(1 ≤ a ∧ a ≤ 6) then b else s.readByte a) ∧
          (∀ j : Fin 8, j.val = k.val + 1 → t.phase = .wr p j ∧ t.checksum p.toNat = s.checksum p.toNat) ∧
          (k.val = 7 → t.phase = .idle ∧ t.checksum p.toNat = crc8Fn t.cfg (t.pageBytes p.toNat)) ∧
          (∀ q, q ≠ p.toNat → t.checksum q = s.checksum q) ∧
          t.vadReg = s.vadReg ∧ t.vddReg = s.vddReg ∧ t.cfg = s.cfg ∧ t.inputs = rest ∧
          t.trace = s.trace ++ [.recv (.byte b)]) ∧
      (s.inputs = .recv .fail :: rest →
        ∃ t, exec (.wrsp p) s = .next t ∧ t.phase = .idle ∧ (∀ a, t.readByte a = s.readByte a) ∧
          t.checksum p.toNat = crc8Fn s.cfg (s.pageBytes p.toNat) ∧ (∀ q, q ≠ p.toNat → t.checksum q = s.checksum q) ∧
          t.vadReg = s.vadReg ∧ t.vddReg = s.vddReg ∧ t.cfg = s.cfg ∧ t.inputs = rest ∧
          t.trace = s.trace ++ [.recv .fail]))

/-- CMD c completes in `CMD`: exactly one error report carrying `c`, and no other change but the end of the
transaction. That the report carries the command byte is the spec's own decision (92_eei_decisions.md D11). -/
def Obligations.UnrecognisedCommandReportsOnce : Prop :=
  ∀ (s : State) (c : Byte), s.phase = .cmd → c ∉ assignedOpcodes →
    ∃ t, exec (.cmd c) s = .next t ∧ t = { s with phase := .idle, trace := s.trace ++ [.report c] } ∧
      reportCount t.trace = reportCount s.trace + 1

/-- The frame of the commands that store no byte: CONVT, CPSP, RECALL, RDSP and CMD leave every byte, both channel
registers, the configuration and every checksum as they were, but for CONVT's checksum of page 0. -/
def Obligations.CommandsWithoutStoresKeepMemory : Prop :=
  ∀ (s t : State) (i : Instr),
    (i = .convt ∨ (∃ p, i = .cpsp p) ∨ (∃ p, i = .recallMem p) ∨ (∃ p, i = .rdsp p) ∨ (∃ c, i = .cmd c)) →
    exec i s = .next t →
    (∀ a, t.readByte a = s.readByte a) ∧ t.vadReg = s.vadReg ∧ t.vddReg = s.vddReg ∧ t.cfg = s.cfg ∧
      ∀ q, (i = .convt → q ≠ 0) → t.checksum q = s.checksum q

/-- The frame of the commands that store: WRSP changes at most the byte its phase addresses, CONVV at most the bytes 3
and 4; each changes at most the checksum of its page and no channel register. -/
def Obligations.CommandsWithStoresKeepOtherMemory : Prop :=
  ∀ s t : State,
    (∀ p : Byte, exec (.wrsp p) s = .next t →
      (∀ a, (∀ k : Fin 8, s.phase = .wr p k → a ≠ byteAddress p k.val) → t.readByte a = s.readByte a) ∧
      (∀ q, q ≠ p.toNat → t.checksum q = s.checksum q) ∧
      t.vadReg = s.vadReg ∧ t.vddReg = s.vddReg ∧ t.cfg = s.cfg) ∧
    (exec .convv s = .next t →
      (∀ a, a ≠ 3 → a ≠ 4 → t.readByte a = s.readByte a) ∧ (∀ q, q ≠ 0 → t.checksum q = s.checksum q) ∧
      t.vadReg = s.vadReg ∧ t.vddReg = s.vddReg ∧ t.cfg = s.cfg)

/-- Where the checksum invariant holds, CONVT changes nothing at all but the phase. -/
def Obligations.ConvertTemperatureIsInvisible : Prop :=
  ∀ s : State, s.Inv → s.phase = .cmd → exec .convt s = .next { s with phase := .idle }

/-- CONVV repeated with no change in between leaves every byte and every checksum as after its first execution. -/
def Obligations.ConvertVoltageIsIdempotent : Prop :=
  ∀ s t u : State, s.crc.length = s.cfg.pageCount + 1 → exec .convv s = .next t →
    exec .convv { t with phase := .cmd } = .next u →
    (∀ a, u.readByte a = t.readByte a) ∧ (∀ q, u.checksum q = t.checksum q) ∧ u.phase = t.phase ∧
      u.vadReg = t.vadReg ∧ u.vddReg = t.vddReg

/-- A byte that Write Scratchpad stores at address 0 sets every flag of the configuration byte as received. The bit
positions are the spec's own decision (92_eei_decisions.md D3). -/
def Obligations.WrittenConfigurationByteSetsEveryFlag : Prop :=
  ∀ (s : State) (b : Byte) (rest : List Input), s.cfg.ok = true → s.phase = .wr 0 0 →
    s.inputs = .recv (.byte b) :: rest →
    ∃ t, step s = .next t ∧ t.iad = b.getLsbD 0 ∧ t.ca = b.getLsbD 1 ∧ t.ee = b.getLsbD 2 ∧ t.ad = b.getLsbD 3 ∧
      t.tb = b.getLsbD 4 ∧ t.nvb = b.getLsbD 5 ∧ t.adb = b.getLsbD 6 ∧ t.configBit7 = b.getLsbD 7

/-- R33: Write Scratchpad discards the bytes for addresses 1 to 6; the restriction is of page 0 only, so offsets 1 to 6 of
the other pages are written; the application port's `writeRange` is not restricted. -/
def Obligations.ReadOnlyRangeBindsWriteScratchpadOnly : Prop :=
  ∀ (s : State) (rest : List Input), s.cfg.ok = true →
    (∀ (p : Byte) (k : Fin 8) (b : Byte), p.toNat < s.cfg.pageCount → s.phase = .wr p k →
      s.inputs = .recv (.byte b) :: rest → 1 ≤ k.val → k.val ≤ 6 →
      ∃ t, step s = .next t ∧
        (p.toNat = 0 → ∀ a, t.readByte a = s.readByte a) ∧
        (p.toNat ≠ 0 → t.readByte (8 * p.toNat + k.val) = b)) ∧
    (∀ (a : Nat) (b : Byte), 1 ≤ a → a ≤ 6 → s.phase = .idle → s.inputs = .app (.writeRange a [b]) :: rest →
      ∃ t, step s = .next t ∧ t.readByte a = b)

/-! ### Errors -/

/-- R201: what each of the four error situations does. None but E3 is recorded; E4 keeps the bytes and recomputes. -/
def Obligations.ErrorSituationsHaveTheirEffects : Prop :=
  ∀ s : State, s.wf = true →
    (s.errorSituation = some .transportFailure →
      (∃ e, step s = .next { s with phase := .idle, inputs := s.inputs.tail, trace := s.trace ++ [e] } ∧
        ∀ c, e ≠ .report c)) ∧
    (s.errorSituation = some .indexOutOfRange →
      (∃ p : Byte, s.cfg.pageCount ≤ p.toNat ∧
        step s = .next { s with
          phase := .idle, inputs := s.inputs.tail, trace := s.trace ++ [.recv (.byte p)] })) ∧
    (∀ c, s.errorSituation = some (.unrecognisedCommand c) →
      step s = .next { s with
        phase := .idle, inputs := s.inputs.tail, trace := s.trace ++ [.recv (.byte c), .report c] }) ∧
    (s.errorSituation = some .partialWrite →
      (∃ (p : Byte) (k : Fin 8), s.phase = .wr p k ∧
        step s = .next { s.recompute p.toNat with
          phase := .idle, inputs := s.inputs.tail, trace := s.trace ++ [.recv .fail] }))

/-- An error report is emitted by an unrecognised command byte and by nothing else, once: the step shows the exchange and
one report of that byte, and nothing more. That it carries the command byte is the spec's own decision
(92_eei_decisions.md D11). -/
def Obligations.OnlyUnrecognisedCommandsReport : Prop :=
  ∀ s t : State, step s = .next t →
    (∀ c, s.errorSituation = some (.unrecognisedCommand c) →
      t.trace = s.trace ++ [.recv (.byte c), .report c] ∧ reportCount t.trace = reportCount s.trace + 1) ∧
    ((∀ c, s.errorSituation ≠ some (.unrecognisedCommand c)) → reportCount t.trace = reportCount s.trace)

/-! ### Checksums -/

/-- R141: `Recompute(p)` writes the checksum of the page's current bytes to `CRC[p]` and nothing else, and no step
writes the spare slot. -/
def Obligations.RecomputeWritesOnlyItsChecksum : Prop :=
  (∀ (s : State) (p : Nat), p < s.cfg.pageCount → s.crc.length = s.cfg.pageCount + 1 →
    (s.recompute p).checksum p = crc8Fn s.cfg ((List.range' (8 * p) 8).map s.readByte) ∧
    (∀ q, q ≠ p → (s.recompute p).checksum q = s.checksum q) ∧
    s.recompute p = { s with crc := (s.recompute p).crc }) ∧
  ∀ s t : State, s.wf = true → step s = .next t → t.checksum s.cfg.pageCount = s.checksum s.cfg.pageCount

/-- The host's check, under the default `CRC8_FN`: the checksum function over a page followed by its checksum is 0, for
every page content, and so for every response of a block that meets the invariant and is reading. The default is the
spec's, from general knowledge (93_implementation_defined.md G1, G3; notes/assumptions/9.md). -/
def Obligations.ResponsesPassTheHostCheck : Prop :=
  (∀ (c : Config) (page : List Byte), c.crcFn = .standard → hostCheck c (page ++ [crc8Fn c page]) = true) ∧
  ∀ (s : State) (p : Byte) (k : Fin 9), s.Inv → s.cfg.crcFn = .standard → s.phase = .rd p k →
    hostCheck s.cfg (s.responseBytes p) = true

/-- Every checksum the ports show is that of the page's current bytes: the ninth byte of a read, and `checksumOf`. -/
def Obligations.ChecksumsShownAreFresh : Prop :=
  ∀ (s : State) (rest : List Input), s.Inv →
    (∀ (p : Byte) (a : SendAnswer), s.phase = .rd p 8 → s.inputs = .send a :: rest →
      ∃ t, step s = .next t ∧ t.trace = s.trace ++ [.send (crc8Fn s.cfg (s.pageBytes p.toNat)) a]) ∧
    (∀ p : Nat, p < s.cfg.pageCount → s.phase = .idle → s.inputs = .app (.checksumOf p) :: rest →
      step s = .next { s with
        inputs := rest, trace := s.trace ++ [.app (.checksumOf p) (.checksum (crc8Fn s.cfg (s.pageBytes p)))] })

/-! ### Reset -/

/-- Reset under every admitted configuration: the factory image with the configuration byte patched, the flags, every
page's checksum over the patched bytes, the channel registers at their parameters, `IDLE`, nothing shown
(70_reset_and_hazards.md section 1). The byte-0 formula, the reset checksums and the register parameters are the spec's own
decisions (92_eei_decisions.md D3, D4, D18, D19, D21). -/
def Obligations.ResetLeavesTheStatedValues : Prop :=
  ∀ c : Config, c.ok = true →
    (∀ a, 1 ≤ a → a < 8 * c.pageCount → c.factoryImage[a]? = some ((State.resetWith c).readByte a)) ∧
    (∃ f0, c.factoryImage[0]? = some f0 ∧ (State.resetWith c).readByte 0 = (f0 &&& 0x84#8) ||| 0x0B#8 ∧
      (State.resetWith c).ee = f0.getLsbD 2 ∧ (State.resetWith c).configBit7 = f0.getLsbD 7) ∧
    (State.resetWith c).iad = true ∧ (State.resetWith c).ca = true ∧ (State.resetWith c).ad = true ∧
    (State.resetWith c).tb = false ∧ (State.resetWith c).nvb = false ∧ (State.resetWith c).adb = false ∧
    (∀ p, p < c.pageCount → (State.resetWith c).checksum p = crc8Fn c ((State.resetWith c).pageBytes p)) ∧
    (State.resetWith c).vadReg = c.vadReset ∧ (State.resetWith c).vddReg = c.vddReset ∧
    (State.resetWith c).phase = .idle ∧ (State.resetWith c).trace = []

/-- Reset meets the invariant under every admitted configuration, the reference one included. -/
def Obligations.ResetMeetsTheInvariant : Prop :=
  (∀ c : Config, c.ok = true → (State.resetWith c).Inv) ∧ State.reset.Inv

/-! ### The application port -/

/-- `setTemperatureReal` of a rational: with `v` the clamped value times 256 rounded toward zero, byte 1 becomes the low
byte of `v` under the mask, byte 2 the whole degrees `v / 256` rounded down, the checksum of page 0 is recomputed, and
nothing else changes. The mask and the rational operand are the spec's own decisions (92_eei_decisions.md D5, D6). -/
def Obligations.SetTemperatureRealStoresClampedFixedPoint : Prop :=
  ∀ (s : State) (q : Rat) (v : Int) (rest : List Input), s.wf = true → s.phase = .idle →
    s.inputs = .app (.setTemperatureReal (.rational q)) :: rest →
    v = (if 0 ≤ q then ⌊min q 125 * 256⌋ else ⌈max q (-55) * 256⌉) →
    ∃ t, step s = .next t ∧
      t.readByte 1 = (BitVec.ofInt 8 v &&& s.cfg.tempLsbMask) ∧ t.readByte 2 = BitVec.ofInt 8 (v / 256) ∧
      (∀ a, a ≠ 1 → a ≠ 2 → t.readByte a = s.readByte a) ∧
      t.checksum 0 = crc8Fn t.cfg (t.pageBytes 0) ∧ (∀ p, p ≠ 0 → t.checksum p = s.checksum p) ∧
      t.vadReg = s.vadReg ∧ t.vddReg = s.vddReg ∧ t.cfg = s.cfg ∧ t.phase = .idle ∧ t.inputs = rest ∧
      t.trace = s.trace ++ [.app (.setTemperatureReal (.rational q)) .done]

/-- `setTemperatureInt`: byte 1 becomes 0, byte 2 the clamped whole degrees, the checksum of page 0 is recomputed, and
nothing else changes. That every integer is admitted is the spec's own decision (92_eei_decisions.md D7). -/
def Obligations.SetTemperatureIntStoresWholeDegrees : Prop :=
  ∀ (s : State) (n : Int) (rest : List Input), s.wf = true → s.phase = .idle →
    s.inputs = .app (.setTemperatureInt n) :: rest →
    ∃ t, step s = .next t ∧
      t.readByte 1 = 0x00#8 ∧
      (t.readByte 2).toInt = (if n < -55 then -55 else if 125 < n then 125 else n) ∧
      (∀ a, a ≠ 1 → a ≠ 2 → t.readByte a = s.readByte a) ∧
      t.checksum 0 = crc8Fn t.cfg (t.pageBytes 0) ∧ (∀ p, p ≠ 0 → t.checksum p = s.checksum p) ∧
      t.vadReg = s.vadReg ∧ t.vddReg = s.vddReg ∧ t.cfg = s.cfg ∧ t.phase = .idle ∧ t.inputs = rest ∧
      t.trace = s.trace ++ [.app (.setTemperatureInt n) .done]

/-- Either temperature setter leaves a temperature register between -55 °C and 125 °C, whatever its operand and the
mask. -/
def Obligations.SettersKeepTemperatureInRange : Prop :=
  ∀ (s t : State) (rest : List Input),
    ((∃ n, s.inputs = .app (.setTemperatureInt n) :: rest) ∨ (∃ x, s.inputs = .app (.setTemperatureReal x) :: rest)) →
    step s = .next t → -14080 ≤ t.temperature16 ∧ t.temperature16 ≤ 32000

/-- The integer setter agrees with the real one on every integer under the full mask. -/
def Obligations.IntegerAndRealTemperatureAgree : Prop :=
  ∀ n : Int, encTempInt n = encTempReal 0xFF#8 (n : Rat)

/-- The voltage setters: the register of their own channel becomes the operand's low ten bits, and nothing else changes:
no page byte, no checksum, not the other channel. The operand's width is the spec's own decision (92_eei_decisions.md
D10). -/
def Obligations.VoltageSettersWriteTheirRegisterOnly : Prop :=
  ∀ (s : State) (v : Int) (rest : List Input), s.cfg.ok = true → s.phase = .idle → 0 ≤ v → v ≤ 65535 →
    (s.inputs = .app (.setVADVoltage v) :: rest →
      step s = .next { s with
        vadReg := BitVec.ofInt 16 (v % 1024)
        inputs := rest
        trace := s.trace ++ [.app (.setVADVoltage v) .done] }) ∧
    (s.inputs = .app (.setVDDVoltage v) :: rest →
      step s = .next { s with
        vddReg := BitVec.ofInt 16 (v % 1024)
        inputs := rest
        trace := s.trace ++ [.app (.setVDDVoltage v) .done] })

/-- The voltage law: what a setter stores, its getter returns modulo 1024. -/
def Obligations.VoltageRoundTripsModulo1024 : Prop :=
  (∀ v : Half, (decVolt (encVolt v)).toNat = v.toNat % 1024) ∧
  (∀ v : Half, v.toNat < 1024 → encVolt v = v) ∧
  ∀ r : Half, (decVolt r).toNat = r.toNat % 1024

/-- `setCurrent`: byte 5 becomes the low byte, byte 6 the bits 9..8 with the sign of the operand above them, the checksum
of page 0 is recomputed, and nothing else changes. The operand's width is the spec's own decision (92_eei_decisions.md
D9). -/
def Obligations.SetCurrentStoresElevenBits : Prop :=
  ∀ (s : State) (i : Int) (rest : List Input), s.wf = true → s.phase = .idle → -32768 ≤ i → i ≤ 32767 →
    s.inputs = .app (.setCurrent i) :: rest →
    ∃ t, step s = .next t ∧
      (t.readByte 5).toNat = (i % 256).toNat ∧
      (t.readByte 6).toNat = (i / 256 % 4).toNat + (if i < 0 then 252 else 0) ∧
      (∀ a, a ≠ 5 → a ≠ 6 → t.readByte a = s.readByte a) ∧
      t.checksum 0 = crc8Fn t.cfg (t.pageBytes 0) ∧ (∀ p, p ≠ 0 → t.checksum p = s.checksum p) ∧
      t.vadReg = s.vadReg ∧ t.vddReg = s.vddReg ∧ t.cfg = s.cfg ∧ t.phase = .idle ∧ t.inputs = rest ∧
      t.trace = s.trace ++ [.app (.setCurrent i) .done]

/-- The current law, and that the round trip is the identity exactly on -1024 .. 1023. -/
def Obligations.CurrentRoundTripLaw : Prop :=
  ∀ i : Int, -32768 ≤ i → i ≤ 32767 →
    decCurrent (encCurrent i).1 (encCurrent i).2 = (if 0 ≤ i then i % 1024 else i % 1024 - 1024) ∧
    (decCurrent (encCurrent i).1 (encCurrent i).2 = i ↔ -1024 ≤ i ∧ i ≤ 1023)

/-- The getters return the whole-degree byte as a signed number, the registers' low ten bits, and the current bytes as a
signed 16-bit number, and change nothing. That the temperature byte is read as signed is the spec's own decision
(92_eei_decisions.md D8). -/
def Obligations.GettersReadAndChangeNothing : Prop :=
  ∀ (s : State) (rest : List Input), s.cfg.ok = true → s.phase = .idle →
    (s.inputs = .app .getTemperature :: rest →
      step s = .next { s with
        inputs := rest, trace := s.trace ++ [.app .getTemperature (.number (s.readByte 2).toInt)] }) ∧
    (s.inputs = .app .getVADVoltage :: rest →
      step s = .next { s with
        inputs := rest
        trace := s.trace ++ [.app .getVADVoltage (.number ((s.vadReg.toNat : Int) % 1024))] }) ∧
    (s.inputs = .app .getVDDVoltage :: rest →
      step s = .next { s with
        inputs := rest
        trace := s.trace ++ [.app .getVDDVoltage (.number ((s.vddReg.toNat : Int) % 1024))] }) ∧
    (s.inputs = .app .getCurrent :: rest →
      step s = .next { s with
        inputs := rest
        trace := s.trace ++
          [.app .getCurrent (.number ((s.readByte 6).toInt * 256 + (s.readByte 5).toNat))] })

/-- `readRange`: `FAILED` at or past the end, else the bytes that fit, and whether that is all of them; nothing changes.
The edge cases are the spec's own decision (92_eei_decisions.md D14). -/
def Obligations.ReadRangeReturnsTheBytesThatFit : Prop :=
  ∀ (s : State) (pos len : Nat) (rest : List Input), s.cfg.ok = true → s.phase = .idle →
    s.inputs = .app (.readRange pos len) :: rest →
    ∃ r, step s = .next { s with inputs := rest, trace := s.trace ++ [.app (.readRange pos len) r] } ∧
      (8 * s.cfg.pageCount ≤ pos → r = .failed) ∧
      (pos < 8 * s.cfg.pageCount → ∃ data full, r = .bytes data full ∧
        data.length = min len (8 * s.cfg.pageCount - pos) ∧
        (∀ k, k < data.length → data[k]? = some (s.readByte (pos + k))) ∧
        (full = true ↔ pos + len ≤ 8 * s.cfg.pageCount))

/-- `writeRange`: `FAILED` with no effect at or past the end; else the bytes that fit are written, in order and to no
other address, every page they touch has its checksum recomputed and no other, and nothing else changes. The edge
cases are the spec's own decision (92_eei_decisions.md D14). -/
def Obligations.WriteRangeWritesTheBytesThatFit : Prop :=
  ∀ (s : State) (pos : Nat) (bytes : List Byte) (rest : List Input), s.wf = true → s.phase = .idle →
    s.inputs = .app (.writeRange pos bytes) :: rest →
    (8 * s.cfg.pageCount ≤ pos →
      step s = .next { s with inputs := rest, trace := s.trace ++ [.app (.writeRange pos bytes) .failed] }) ∧
    (pos < 8 * s.cfg.pageCount →
      ∃ t full, step s = .next t ∧
        (full = true ↔ pos + bytes.length ≤ 8 * s.cfg.pageCount) ∧
        (∀ k, pos + k < 8 * s.cfg.pageCount → k < bytes.length → bytes[k]? = some (t.readByte (pos + k))) ∧
        (∀ a, (a < pos ∨ pos + bytes.length ≤ a ∨ 8 * s.cfg.pageCount ≤ a) → t.readByte a = s.readByte a) ∧
        (∀ a, pos ≤ a → a < pos + bytes.length → a < 8 * s.cfg.pageCount →
          t.checksum (a / 8) = crc8Fn t.cfg (t.pageBytes (a / 8))) ∧
        (∀ p, (∀ a, pos ≤ a → a < pos + bytes.length → a < 8 * s.cfg.pageCount → a / 8 ≠ p) →
          t.checksum p = s.checksum p) ∧
        t.vadReg = s.vadReg ∧ t.vddReg = s.vddReg ∧ t.cfg = s.cfg ∧ t.phase = .idle ∧ t.inputs = rest ∧
        t.trace = s.trace ++ [.app (.writeRange pos bytes) (.written full)])

/-! ### The whole machine -/

/-- Every step keeps the invariant: the configuration admitted, a checksum slot for every page, the memory in its
canonical form, the phase's page existing, and every page's cached checksum that of its bytes but for a page in the
middle of a write. -/
def Obligations.EveryStepKeepsTheInvariant : Prop :=
  ∀ s t : State, s.Inv → step s = .next t → t.Inv

/-- The configuration never changes; what the ports have shown is never taken back, and a step takes at most the next act
of the outside. MODEL'S CHOICE in its second half: `trace` and `inputs` are the model's own fields (notes/assumptions/1.md,
3.md), and that the first pending act leaves the queue even where the phase did not ask for it is
notes/assumptions/11.md. -/
def Obligations.StepsKeepConfigurationAndHistory : Prop :=
  ∀ s t : State, step s = .next t → t.cfg = s.cfg ∧ s.trace <+: t.trace ∧ t.inputs = s.inputs.tail

/-- Access rights of the bus: no act of the bus side ever changes the temperature bytes, the current bytes or a channel
register, and only a Convert Voltage command byte changes the voltage bytes. -/
def Obligations.BusCannotWriteMeasurements : Prop :=
  ∀ (s t : State) (inp : Input) (rest : List Input), s.inputs = inp :: rest → inp.fromBus = true →
    step s = .next t →
    t.readByte 1 = s.readByte 1 ∧ t.readByte 2 = s.readByte 2 ∧ t.readByte 5 = s.readByte 5 ∧
      t.readByte 6 = s.readByte 6 ∧ t.vadReg = s.vadReg ∧ t.vddReg = s.vddReg ∧
      (¬(s.phase = .cmd ∧ inp = .recv (.byte 0xB4#8)) →
        t.readByte 3 = s.readByte 3 ∧ t.readByte 4 = s.readByte 4)

/-- The configuration byte, and so every busy flag, changes only by a byte written to address 0: by Write Scratchpad of
page 0 or by `writeRange`. No command sets or clears a flag by itself. -/
def Obligations.FlagsChangeOnlyByWritesToByteZero : Prop :=
  ∀ s t : State, step s = .next t → t.configByte ≠ s.configByte →
    (∃ (p b : Byte) (k : Fin 8) (rest : List Input), s.phase = .wr p k ∧ 8 * p.toNat + k.val = 0 ∧
      s.inputs = .recv (.byte b) :: rest ∧ t.configByte = b) ∨
    (∃ (b : Byte) (bs : List Byte) (rest : List Input), s.inputs = .app (.writeRange 0 (b :: bs)) :: rest ∧
      t.configByte = b)

/-- A transaction changes at most one page and one checksum. A step of the bus side leaves the bytes and the checksum of
every page but the one being written, and in `CMD` but page 0; and the page being written stays the same until the
transaction ends: after `WR(p, k)` comes `WR` of the same page or `IDLE`. -/
def Obligations.TransactionsTouchOnePage : Prop :=
  ∀ (s t : State) (inp : Input) (rest : List Input), s.inputs = inp :: rest → inp.fromBus = true →
    step s = .next t →
    (∀ q : Nat, s.phase.writing ≠ some q → (s.phase = .cmd → q ≠ 0) →
      (∀ a, a / 8 = q → t.readByte a = s.readByte a) ∧ t.checksum q = s.checksum q) ∧
    ∀ q : Nat, s.phase.writing = some q → t.phase.writing = some q ∨ t.phase = .idle

/-- Every transaction ends: whatever the transport answers, a transaction is back in `IDLE` after at most 11 exchanges,
and meets no fault and no refusal on the way. -/
def Obligations.TransactionsEndWithinElevenExchanges : Prop :=
  ∀ (r : Nat → RecvAnswer) (a : Nat → SendAnswer) (s : State), s.wf = true → s.phase = .cmd →
    ∃ t, s.driven r a 11 = .next t ∧ t.phase = .idle

/-- A transaction run exchange by exchange has exactly the effect the command rules give it as a whole, for every
transaction of the notation of 30_encoding.md section 5, with its early failures, on every page index; it takes at most
11 exchanges. -/
def Obligations.TransactionsRunAsOneEffect : Prop :=
  ∀ (s : State) (t : Transaction) (rest : List Input), s.cfg.ok = true → s.phase = .idle → t.wellFormed = true →
    s.inputs = .start :: t.answers s.cfg.pageCount ++ rest →
    (t.answers s.cfg.pageCount).length ≤ 11 ∧
    s.run ((t.answers s.cfg.pageCount).length + 1) = .next (t.after s rest)

/-- Nothing observes the spare checksum slot, the family code or the serial number: a step does the same whatever they
hold, and leaves them as they are. -/
def Obligations.SpareSlotAndIdentityAreUnobserved : Prop :=
  ∀ (s : State) (spare family : Byte) (serial : Vector Byte 7), s.wf = true →
    step (s.withUnobserved spare family serial) = mapNext (fun t => t.withUnobserved spare family serial) (step s)

/-- `CRC8_FN` is a parameter, and nothing but checksums depends on it: under any other function, and whatever the cached
checksums are, a step does the same to every byte, to both channel registers and to the phase, and takes the same act. -/
def Obligations.OnlyChecksumsDependOnTheChecksumFunction : Prop :=
  ∀ (s t : State) (f : ChecksumFn) (checksums : List Byte), step s = .next t →
    ∃ u, step { s with cfg := { s.cfg with crcFn := f }, crc := checksums } = .next u ∧
      (∀ a, u.readByte a = t.readByte a) ∧ u.vadReg = t.vadReg ∧ u.vddReg = t.vddReg ∧ u.phase = t.phase ∧
      u.inputs = t.inputs ∧ u.cfg = { t.cfg with crcFn := f } ∧ reportCount u.trace = reportCount t.trace
end

