-- ==== Sys2Proof/Laws/Memory.lean ====
section
/-! SUPPORT. The laws of the scratchpad: a read after a write, and the canonical form. -/

namespace Sys2Proof.Machine

theorem Memory.find_erase_self (a : Nat) (m : Memory) : Memory.find a (Memory.erase a m) = none := by
  induction m with
  | nil => rfl
  | cons cell m ih =>
    obtain ⟨x, v⟩ := cell
    by_cases h : x = a
    · simpa [Memory.erase, h] using ih
    · simpa [Memory.erase, Memory.find, h] using ih

theorem Memory.find_erase_of_ne {a a' : Nat} (h : a' ≠ a) (m : Memory) :
    Memory.find a' (Memory.erase a m) = Memory.find a' m := by
  induction m with
  | nil => rfl
  | cons cell m ih =>
    obtain ⟨x, v⟩ := cell
    by_cases hx : x = a
    · have hne : x ≠ a' := by omega
      simpa [Memory.erase, Memory.find, hx, h.symm] using ih
    · by_cases hx' : x = a'
      · simp [Memory.erase, Memory.find, hx', h]
      · simpa [Memory.erase, Memory.find, hx, hx'] using ih

theorem Memory.find_insert_self (a : Nat) (b : Byte) (m : Memory) (h : Memory.find a m = none) :
    Memory.find a (Memory.insert a b m) = some b := by
  induction m with
  | nil => simp [Memory.insert, Memory.find]
  | cons cell m ih =>
    obtain ⟨x, v⟩ := cell
    have hx : x ≠ a := by
      rintro rfl
      simp [Memory.find] at h
    have hm : Memory.find a m = none := by simpa [Memory.find, hx] using h
    by_cases hlt : a < x
    · simp [Memory.insert, Memory.find, hlt]
    · simp [Memory.insert, Memory.find, hlt, hx, ih hm]

theorem Memory.find_insert_of_ne {a a' : Nat} (h : a' ≠ a) (b : Byte) (m : Memory) :
    Memory.find a' (Memory.insert a b m) = Memory.find a' m := by
  induction m with
  | nil => simp [Memory.insert, Memory.find, h.symm]
  | cons cell m ih =>
    obtain ⟨x, v⟩ := cell
    by_cases hlt : a < x
    · simp [Memory.insert, Memory.find, hlt, h.symm]
    · by_cases hx : x = a'
      · subst hx
        simp [Memory.insert, Memory.find, hlt]
      · simp [Memory.insert, Memory.find, hlt, hx, ih]

/-- A read after a write to the same address gives the byte written. -/
@[simp] theorem Memory.read_write_self (c : Config) (m : Memory) (a : Nat) (b : Byte) :
    Memory.read c (Memory.write c m a b) a = b := by
  unfold Memory.read Memory.write
  split
  · rename_i hb
    simp [Memory.find_erase_self, hb]
  · simp [Memory.find_insert_self _ _ _ (Memory.find_erase_self a m)]

/-- A write leaves every other address alone. -/
theorem Memory.read_write_of_ne (c : Config) (m : Memory) {a a' : Nat} (h : a' ≠ a) (b : Byte) :
    Memory.read c (Memory.write c m a b) a' = Memory.read c m a' := by
  unfold Memory.read Memory.write
  split <;> simp [Memory.find_erase_of_ne h, Memory.find_insert_of_ne h]

theorem Memory.wf_erase (c : Config) (a : Nat) (m : Memory) (h : Memory.wf c m = true) :
    Memory.wf c (Memory.erase a m) = true := by
  induction m with
  | nil => rfl
  | cons cell m ih =>
    obtain ⟨x, v⟩ := cell
    simp only [Memory.wf, Bool.and_eq_true, List.all_eq_true] at h
    obtain ⟨⟨⟨hall, hin⟩, hne⟩, hm⟩ := h
    by_cases hx : x = a
    · simpa [Memory.erase, hx] using ih hm
    · have hsub : ∀ cell ∈ Memory.erase a m, cell ∈ m := fun cell hc => (List.mem_filter.mp hc).1
      have : Memory.erase a ((x, v) :: m) = (x, v) :: Memory.erase a m := by simp [Memory.erase, hx]
      rw [this]
      simp only [Memory.wf, Bool.and_eq_true, List.all_eq_true]
      exact ⟨⟨⟨fun cell hc => hall cell (hsub cell hc), hin⟩, hne⟩, ih hm⟩

theorem Memory.mem_insert {a : Nat} {b : Byte} {m : Memory} {cell : Host.Cell}
    (h : cell ∈ Memory.insert a b m) : cell = (a, b) ∨ cell ∈ m := by
  induction m with
  | nil => simpa [Memory.insert] using h
  | cons head m ih =>
    obtain ⟨x, v⟩ := head
    by_cases hlt : a < x
    · simpa [Memory.insert, hlt] using h
    · simp only [Memory.insert, hlt, if_false, List.mem_cons] at h
      rcases h with h | h
      · exact .inr (by simp [h])
      · rcases ih h with h | h
        · exact .inl h
        · exact .inr (by simp [h])

theorem Memory.wf_insert (c : Config) (a : Nat) (b : Byte) (m : Memory) (h : Memory.wf c m = true)
    (ha : a < c.memSize) (hb : b ≠ resetByte c a) (hnew : ∀ cell ∈ m, cell.1 ≠ a) :
    Memory.wf c (Memory.insert a b m) = true := by
  induction m with
  | nil => simp [Memory.insert, Memory.wf, ha, hb]
  | cons head m ih =>
    obtain ⟨x, v⟩ := head
    have hkeep := h
    simp only [Memory.wf, Bool.and_eq_true, List.all_eq_true, decide_eq_true_eq] at h
    obtain ⟨⟨⟨hall, hin⟩, hne⟩, hm⟩ := h
    by_cases hlt : a < x
    · simp only [Memory.insert, hlt, if_true]
      rw [Memory.wf, hkeep]
      simp only [List.all_cons, Bool.and_eq_true, List.all_eq_true, decide_eq_true_eq]
      exact ⟨⟨⟨⟨hlt, fun cell hc => hlt.trans (hall cell hc)⟩, ha⟩, hb⟩, trivial⟩
    · have hxa : x ≠ a := hnew (x, v) (by simp)
      simp only [Memory.insert, hlt, if_false, Memory.wf, Bool.and_eq_true, List.all_eq_true, decide_eq_true_eq]
      refine ⟨⟨⟨fun cell hc => ?_, hin⟩, hne⟩, ih hm (fun cell hc => hnew cell (by simp [hc]))⟩
      rcases Memory.mem_insert hc with rfl | hc
      · simp only; omega
      · exact hall cell hc

/-- Writing inside the scratchpad keeps the canonical form. -/
theorem Memory.wf_write (c : Config) (m : Memory) (a : Nat) (b : Byte) (h : Memory.wf c m = true)
    (ha : a < c.memSize) : Memory.wf c (Memory.write c m a b) = true := by
  unfold Memory.write
  split
  · exact Memory.wf_erase c a m h
  · rename_i hb
    refine Memory.wf_insert c a b _ (Memory.wf_erase c a m h) ha hb fun cell hc => ?_
    simpa using (List.mem_filter.mp hc).2

end Sys2Proof.Machine
end

