-- ==== Sys2Proof/Laws/State.lean ====
section
/-! SUPPORT. One lemma per field of `State` per named update, each true by unfolding. -/

namespace Sys2Proof.Machine

variable (s : State)

@[simp] theorem State.writeByte_cfg (a : Nat) (b : Byte) : (s.writeByte a b).cfg = s.cfg := rfl
@[simp] theorem State.writeByte_mem (a : Nat) (b : Byte) : (s.writeByte a b).mem = Memory.write s.cfg s.mem a b := rfl
@[simp] theorem State.writeByte_crc (a : Nat) (b : Byte) : (s.writeByte a b).crc = s.crc := rfl
@[simp] theorem State.writeByte_vadReg (a : Nat) (b : Byte) : (s.writeByte a b).vadReg = s.vadReg := rfl
@[simp] theorem State.writeByte_vddReg (a : Nat) (b : Byte) : (s.writeByte a b).vddReg = s.vddReg := rfl
@[simp] theorem State.writeByte_phase (a : Nat) (b : Byte) : (s.writeByte a b).phase = s.phase := rfl
@[simp] theorem State.writeByte_inputs (a : Nat) (b : Byte) : (s.writeByte a b).inputs = s.inputs := rfl
@[simp] theorem State.writeByte_trace (a : Nat) (b : Byte) : (s.writeByte a b).trace = s.trace := rfl
@[simp] theorem State.writeByte_checksum (a : Nat) (b : Byte) (x : Nat) : (s.writeByte a b).checksum x = s.checksum x := rfl

@[simp] theorem State.writeHalf_cfg (a : Nat) (h : Half) : (s.writeHalf a h).cfg = s.cfg := rfl
@[simp] theorem State.writeHalf_mem (a : Nat) (h : Half) : (s.writeHalf a h).mem = Memory.write s.cfg (Memory.write s.cfg s.mem a (lowByte h)) (a + 1) (highByte h) := rfl
@[simp] theorem State.writeHalf_crc (a : Nat) (h : Half) : (s.writeHalf a h).crc = s.crc := rfl
@[simp] theorem State.writeHalf_vadReg (a : Nat) (h : Half) : (s.writeHalf a h).vadReg = s.vadReg := rfl
@[simp] theorem State.writeHalf_vddReg (a : Nat) (h : Half) : (s.writeHalf a h).vddReg = s.vddReg := rfl
@[simp] theorem State.writeHalf_phase (a : Nat) (h : Half) : (s.writeHalf a h).phase = s.phase := rfl
@[simp] theorem State.writeHalf_inputs (a : Nat) (h : Half) : (s.writeHalf a h).inputs = s.inputs := rfl
@[simp] theorem State.writeHalf_trace (a : Nat) (h : Half) : (s.writeHalf a h).trace = s.trace := rfl
@[simp] theorem State.writeHalf_checksum (a : Nat) (h : Half) (x : Nat) : (s.writeHalf a h).checksum x = s.checksum x := rfl

@[simp] theorem State.recompute_cfg (p : Nat) : (s.recompute p).cfg = s.cfg := rfl
@[simp] theorem State.recompute_mem (p : Nat) : (s.recompute p).mem = s.mem := rfl
@[simp] theorem State.recompute_crc (p : Nat) : (s.recompute p).crc = s.crc.set p (crc8Fn s.cfg (s.pageBytes p)) := rfl
@[simp] theorem State.recompute_vadReg (p : Nat) : (s.recompute p).vadReg = s.vadReg := rfl
@[simp] theorem State.recompute_vddReg (p : Nat) : (s.recompute p).vddReg = s.vddReg := rfl
@[simp] theorem State.recompute_phase (p : Nat) : (s.recompute p).phase = s.phase := rfl
@[simp] theorem State.recompute_inputs (p : Nat) : (s.recompute p).inputs = s.inputs := rfl
@[simp] theorem State.recompute_trace (p : Nat) : (s.recompute p).trace = s.trace := rfl
@[simp] theorem State.recompute_readByte (p : Nat) (x : Nat) : (s.recompute p).readByte x = s.readByte x := rfl
@[simp] theorem State.recompute_pageBytes (p : Nat) (x : Nat) : (s.recompute p).pageBytes x = s.pageBytes x := rfl

@[simp] theorem State.setVad_cfg (h : Half) : (s.setVad h).cfg = s.cfg := rfl
@[simp] theorem State.setVad_mem (h : Half) : (s.setVad h).mem = s.mem := rfl
@[simp] theorem State.setVad_crc (h : Half) : (s.setVad h).crc = s.crc := rfl
@[simp] theorem State.setVad_vadReg (h : Half) : (s.setVad h).vadReg = h := rfl
@[simp] theorem State.setVad_vddReg (h : Half) : (s.setVad h).vddReg = s.vddReg := rfl
@[simp] theorem State.setVad_phase (h : Half) : (s.setVad h).phase = s.phase := rfl
@[simp] theorem State.setVad_inputs (h : Half) : (s.setVad h).inputs = s.inputs := rfl
@[simp] theorem State.setVad_trace (h : Half) : (s.setVad h).trace = s.trace := rfl
@[simp] theorem State.setVad_readByte (h : Half) (x : Nat) : (s.setVad h).readByte x = s.readByte x := rfl
@[simp] theorem State.setVad_pageBytes (h : Half) (x : Nat) : (s.setVad h).pageBytes x = s.pageBytes x := rfl
@[simp] theorem State.setVad_checksum (h : Half) (x : Nat) : (s.setVad h).checksum x = s.checksum x := rfl

@[simp] theorem State.setVdd_cfg (h : Half) : (s.setVdd h).cfg = s.cfg := rfl
@[simp] theorem State.setVdd_mem (h : Half) : (s.setVdd h).mem = s.mem := rfl
@[simp] theorem State.setVdd_crc (h : Half) : (s.setVdd h).crc = s.crc := rfl
@[simp] theorem State.setVdd_vadReg (h : Half) : (s.setVdd h).vadReg = s.vadReg := rfl
@[simp] theorem State.setVdd_vddReg (h : Half) : (s.setVdd h).vddReg = h := rfl
@[simp] theorem State.setVdd_phase (h : Half) : (s.setVdd h).phase = s.phase := rfl
@[simp] theorem State.setVdd_inputs (h : Half) : (s.setVdd h).inputs = s.inputs := rfl
@[simp] theorem State.setVdd_trace (h : Half) : (s.setVdd h).trace = s.trace := rfl
@[simp] theorem State.setVdd_readByte (h : Half) (x : Nat) : (s.setVdd h).readByte x = s.readByte x := rfl
@[simp] theorem State.setVdd_pageBytes (h : Half) (x : Nat) : (s.setVdd h).pageBytes x = s.pageBytes x := rfl
@[simp] theorem State.setVdd_checksum (h : Half) (x : Nat) : (s.setVdd h).checksum x = s.checksum x := rfl

@[simp] theorem State.setPhase_cfg (ph : Phase) : (s.setPhase ph).cfg = s.cfg := rfl
@[simp] theorem State.setPhase_mem (ph : Phase) : (s.setPhase ph).mem = s.mem := rfl
@[simp] theorem State.setPhase_crc (ph : Phase) : (s.setPhase ph).crc = s.crc := rfl
@[simp] theorem State.setPhase_vadReg (ph : Phase) : (s.setPhase ph).vadReg = s.vadReg := rfl
@[simp] theorem State.setPhase_vddReg (ph : Phase) : (s.setPhase ph).vddReg = s.vddReg := rfl
@[simp] theorem State.setPhase_phase (ph : Phase) : (s.setPhase ph).phase = ph := rfl
@[simp] theorem State.setPhase_inputs (ph : Phase) : (s.setPhase ph).inputs = s.inputs := rfl
@[simp] theorem State.setPhase_trace (ph : Phase) : (s.setPhase ph).trace = s.trace := rfl
@[simp] theorem State.setPhase_readByte (ph : Phase) (x : Nat) : (s.setPhase ph).readByte x = s.readByte x := rfl
@[simp] theorem State.setPhase_pageBytes (ph : Phase) (x : Nat) : (s.setPhase ph).pageBytes x = s.pageBytes x := rfl
@[simp] theorem State.setPhase_checksum (ph : Phase) (x : Nat) : (s.setPhase ph).checksum x = s.checksum x := rfl

@[simp] theorem State.takeInput_cfg : s.takeInput.cfg = s.cfg := rfl
@[simp] theorem State.takeInput_mem : s.takeInput.mem = s.mem := rfl
@[simp] theorem State.takeInput_crc : s.takeInput.crc = s.crc := rfl
@[simp] theorem State.takeInput_vadReg : s.takeInput.vadReg = s.vadReg := rfl
@[simp] theorem State.takeInput_vddReg : s.takeInput.vddReg = s.vddReg := rfl
@[simp] theorem State.takeInput_phase : s.takeInput.phase = s.phase := rfl
@[simp] theorem State.takeInput_inputs : s.takeInput.inputs = s.inputs.tail := rfl
@[simp] theorem State.takeInput_trace : s.takeInput.trace = s.trace := rfl
@[simp] theorem State.takeInput_readByte (x : Nat) : s.takeInput.readByte x = s.readByte x := rfl
@[simp] theorem State.takeInput_pageBytes (x : Nat) : s.takeInput.pageBytes x = s.pageBytes x := rfl
@[simp] theorem State.takeInput_checksum (x : Nat) : s.takeInput.checksum x = s.checksum x := rfl

@[simp] theorem State.emit_cfg (e : Event) : (s.emit e).cfg = s.cfg := rfl
@[simp] theorem State.emit_mem (e : Event) : (s.emit e).mem = s.mem := rfl
@[simp] theorem State.emit_crc (e : Event) : (s.emit e).crc = s.crc := rfl
@[simp] theorem State.emit_vadReg (e : Event) : (s.emit e).vadReg = s.vadReg := rfl
@[simp] theorem State.emit_vddReg (e : Event) : (s.emit e).vddReg = s.vddReg := rfl
@[simp] theorem State.emit_phase (e : Event) : (s.emit e).phase = s.phase := rfl
@[simp] theorem State.emit_inputs (e : Event) : (s.emit e).inputs = s.inputs := rfl
@[simp] theorem State.emit_trace (e : Event) : (s.emit e).trace = s.trace ++ [e] := rfl
@[simp] theorem State.emit_readByte (e : Event) (x : Nat) : (s.emit e).readByte x = s.readByte x := rfl
@[simp] theorem State.emit_pageBytes (e : Event) (x : Nat) : (s.emit e).pageBytes x = s.pageBytes x := rfl
@[simp] theorem State.emit_checksum (e : Event) (x : Nat) : (s.emit e).checksum x = s.checksum x := rfl

@[simp] theorem State.received_cfg (a : RecvAnswer) : (s.received a).cfg = s.cfg := rfl
@[simp] theorem State.received_mem (a : RecvAnswer) : (s.received a).mem = s.mem := rfl
@[simp] theorem State.received_crc (a : RecvAnswer) : (s.received a).crc = s.crc := rfl
@[simp] theorem State.received_vadReg (a : RecvAnswer) : (s.received a).vadReg = s.vadReg := rfl
@[simp] theorem State.received_vddReg (a : RecvAnswer) : (s.received a).vddReg = s.vddReg := rfl
@[simp] theorem State.received_phase (a : RecvAnswer) : (s.received a).phase = s.phase := rfl
@[simp] theorem State.received_inputs (a : RecvAnswer) : (s.received a).inputs = s.inputs.tail := rfl
@[simp] theorem State.received_trace (a : RecvAnswer) : (s.received a).trace = s.trace ++ [.recv a] := rfl
@[simp] theorem State.received_readByte (a : RecvAnswer) (x : Nat) : (s.received a).readByte x = s.readByte x := rfl
@[simp] theorem State.received_pageBytes (a : RecvAnswer) (x : Nat) : (s.received a).pageBytes x = s.pageBytes x := rfl
@[simp] theorem State.received_checksum (a : RecvAnswer) (x : Nat) : (s.received a).checksum x = s.checksum x := rfl

@[simp] theorem State.sent_cfg (b : Byte) (a : SendAnswer) : (s.sent b a).cfg = s.cfg := rfl
@[simp] theorem State.sent_mem (b : Byte) (a : SendAnswer) : (s.sent b a).mem = s.mem := rfl
@[simp] theorem State.sent_crc (b : Byte) (a : SendAnswer) : (s.sent b a).crc = s.crc := rfl
@[simp] theorem State.sent_vadReg (b : Byte) (a : SendAnswer) : (s.sent b a).vadReg = s.vadReg := rfl
@[simp] theorem State.sent_vddReg (b : Byte) (a : SendAnswer) : (s.sent b a).vddReg = s.vddReg := rfl
@[simp] theorem State.sent_phase (b : Byte) (a : SendAnswer) : (s.sent b a).phase = s.phase := rfl
@[simp] theorem State.sent_inputs (b : Byte) (a : SendAnswer) : (s.sent b a).inputs = s.inputs.tail := rfl
@[simp] theorem State.sent_trace (b : Byte) (a : SendAnswer) : (s.sent b a).trace = s.trace ++ [.send b a] := rfl
@[simp] theorem State.sent_readByte (b : Byte) (a : SendAnswer) (x : Nat) : (s.sent b a).readByte x = s.readByte x := rfl
@[simp] theorem State.sent_pageBytes (b : Byte) (a : SendAnswer) (x : Nat) : (s.sent b a).pageBytes x = s.pageBytes x := rfl
@[simp] theorem State.sent_checksum (b : Byte) (a : SendAnswer) (x : Nat) : (s.sent b a).checksum x = s.checksum x := rfl

@[simp] theorem State.reportError_cfg (c : Byte) : (s.reportError c).cfg = s.cfg := rfl
@[simp] theorem State.reportError_mem (c : Byte) : (s.reportError c).mem = s.mem := rfl
@[simp] theorem State.reportError_crc (c : Byte) : (s.reportError c).crc = s.crc := rfl
@[simp] theorem State.reportError_vadReg (c : Byte) : (s.reportError c).vadReg = s.vadReg := rfl
@[simp] theorem State.reportError_vddReg (c : Byte) : (s.reportError c).vddReg = s.vddReg := rfl
@[simp] theorem State.reportError_phase (c : Byte) : (s.reportError c).phase = s.phase := rfl
@[simp] theorem State.reportError_inputs (c : Byte) : (s.reportError c).inputs = s.inputs := rfl
@[simp] theorem State.reportError_trace (c : Byte) : (s.reportError c).trace = s.trace ++ [.report c] := rfl
@[simp] theorem State.reportError_readByte (c : Byte) (x : Nat) : (s.reportError c).readByte x = s.readByte x := rfl
@[simp] theorem State.reportError_pageBytes (c : Byte) (x : Nat) : (s.reportError c).pageBytes x = s.pageBytes x := rfl
@[simp] theorem State.reportError_checksum (c : Byte) (x : Nat) : (s.reportError c).checksum x = s.checksum x := rfl

@[simp] theorem State.answer_cfg (op : AppOp) (r : AppResult) : (s.answer op r).cfg = s.cfg := rfl
@[simp] theorem State.answer_mem (op : AppOp) (r : AppResult) : (s.answer op r).mem = s.mem := rfl
@[simp] theorem State.answer_crc (op : AppOp) (r : AppResult) : (s.answer op r).crc = s.crc := rfl
@[simp] theorem State.answer_vadReg (op : AppOp) (r : AppResult) : (s.answer op r).vadReg = s.vadReg := rfl
@[simp] theorem State.answer_vddReg (op : AppOp) (r : AppResult) : (s.answer op r).vddReg = s.vddReg := rfl
@[simp] theorem State.answer_phase (op : AppOp) (r : AppResult) : (s.answer op r).phase = s.phase := rfl
@[simp] theorem State.answer_inputs (op : AppOp) (r : AppResult) : (s.answer op r).inputs = s.inputs := rfl
@[simp] theorem State.answer_trace (op : AppOp) (r : AppResult) : (s.answer op r).trace = s.trace ++ [.app op r] := rfl
@[simp] theorem State.answer_readByte (op : AppOp) (r : AppResult) (x : Nat) : (s.answer op r).readByte x = s.readByte x := rfl
@[simp] theorem State.answer_pageBytes (op : AppOp) (r : AppResult) (x : Nat) : (s.answer op r).pageBytes x = s.pageBytes x := rfl
@[simp] theorem State.answer_checksum (op : AppOp) (r : AppResult) (x : Nat) : (s.answer op r).checksum x = s.checksum x := rfl

@[simp] theorem State.endTransaction_cfg : s.endTransaction.cfg = s.cfg := rfl
@[simp] theorem State.endTransaction_mem : s.endTransaction.mem = s.mem := rfl
@[simp] theorem State.endTransaction_crc : s.endTransaction.crc = s.crc := rfl
@[simp] theorem State.endTransaction_vadReg : s.endTransaction.vadReg = s.vadReg := rfl
@[simp] theorem State.endTransaction_vddReg : s.endTransaction.vddReg = s.vddReg := rfl
@[simp] theorem State.endTransaction_phase : s.endTransaction.phase = .idle := rfl
@[simp] theorem State.endTransaction_inputs : s.endTransaction.inputs = s.inputs := rfl
@[simp] theorem State.endTransaction_trace : s.endTransaction.trace = s.trace := rfl
@[simp] theorem State.endTransaction_readByte (x : Nat) : s.endTransaction.readByte x = s.readByte x := rfl
@[simp] theorem State.endTransaction_pageBytes (x : Nat) : s.endTransaction.pageBytes x = s.pageBytes x := rfl
@[simp] theorem State.endTransaction_checksum (x : Nat) : s.endTransaction.checksum x = s.checksum x := rfl

end Sys2Proof.Machine
end

