-- ==== Sys2Proof/Laws/Ops.lean ====
section
/-! SUPPORT. What each shared operation can do, said once: reads after writes, checksums after recomputations, the
guards, and that every operation keeps the shape of the state. -/

namespace Sys2Proof.Machine

variable {s t : State}

/-! ### Bytes -/

@[simp] theorem State.readByte_writeByte_self (a : Nat) (b : Byte) : (s.writeByte a b).readByte a = b :=
  Memory.read_write_self s.cfg s.mem a b

theorem State.readByte_writeByte_of_ne {a x : Nat} (h : x ≠ a) (b : Byte) :
    (s.writeByte a b).readByte x = s.readByte x :=
  Memory.read_write_of_ne s.cfg s.mem h b

theorem State.readByte_writeByte (a x : Nat) (b : Byte) :
    (s.writeByte a b).readByte x = if x = a then b else s.readByte x := by
  split
  · rename_i h
    rw [h, State.readByte_writeByte_self]
  · rename_i h
    exact State.readByte_writeByte_of_ne h b

theorem State.readByte_writeHalf (a x : Nat) (h : Half) :
    (s.writeHalf a h).readByte x = if x = a then lowByte h else if x = a + 1 then highByte h else s.readByte x := by
  unfold State.writeHalf
  rw [State.readByte_writeByte, State.readByte_writeByte]
  by_cases h1 : x = a + 1
  · simp [h1]
  · simp [h1]

theorem State.readByte_storeFromBus (a x : Nat) (b : Byte) :
    (s.storeFromBus a b).readByte x = if x = a ∧ readOnlyToBus a = false then b else s.readByte x := by
  unfold State.storeFromBus
  cases h : readOnlyToBus a <;> simp [State.readByte_writeByte]

/-- The bytes of a list land in order from the first address up, and nowhere else. -/
theorem State.readByte_writeBytes (bs : List Byte) (a x : Nat) :
    (s.writeBytes a bs).readByte x = if a ≤ x ∧ x < a + bs.length then bs.getD (x - a) 0#8 else s.readByte x := by
  induction bs generalizing s a with
  | nil =>
    rw [if_neg (by simp)]
    rfl
  | cons b bs ih =>
    rw [State.writeBytes, ih, State.readByte_writeByte]
    by_cases hxa : x = a
    · subst hxa
      rw [if_neg (by omega), if_pos rfl, if_pos (by simp)]
      simp
    · by_cases hin : a + 1 ≤ x ∧ x < a + 1 + bs.length
      · rw [if_pos hin, if_pos (by simp; omega)]
        obtain ⟨d, hd⟩ : ∃ d, x - a = d + 1 := ⟨x - a - 1, by omega⟩
        have hd' : x - (a + 1) = d := by omega
        simp [hd, hd']
      · rw [if_neg hin, if_neg hxa, if_neg (by simp; omega)]

theorem State.pageBytes_congr {p : Nat} (h : ∀ k, k < 8 → t.readByte (8 * p + k) = s.readByte (8 * p + k)) :
    t.pageBytes p = s.pageBytes p := by
  unfold State.pageBytes State.readBytes
  refine List.map_congr_left fun x hx => ?_
  rw [List.mem_range'] at hx
  obtain ⟨k, hk, rfl⟩ := hx
  simpa using h k hk

/-! ### Checksums -/

/-- Under the default the checksum function is R140's. -/
theorem crc8Fn_of_standard {c : Config} (h : c.crcFn = .standard) (bytes : List Byte) :
    crc8Fn c bytes = crc8Default bytes := by
  rw [crc8Fn, h]

/-- Under an external function nothing is known of the checksum but which function it is. -/
theorem crc8Fn_of_external {c : Config} {id : Nat} (h : c.crcFn = .external id) (bytes : List Byte) :
    crc8Fn c bytes = Config.externalCrc8 id bytes := by
  rw [crc8Fn, h]

theorem State.checksum_recompute_self {p : Nat} (h : p < s.crc.length) :
    (s.recompute p).checksum p = crc8Fn s.cfg (s.pageBytes p) := by
  simp [State.checksum, List.getD_eq_getElem?_getD, h]

theorem State.checksum_recompute_of_ne {p q : Nat} (h : q ≠ p) : (s.recompute p).checksum q = s.checksum q := by
  simp [State.checksum, List.getD_eq_getElem?_getD, h.symm]

/-- Recomputing `n` pages changes nothing but the checksum cache, and keeps its length. -/
theorem State.recomputePages_frame (p n : Nat) :
    ∃ crc, s.recomputePages p n = { s with crc := crc } ∧ crc.length = s.crc.length := by
  induction n generalizing s p with
  | zero => exact ⟨s.crc, rfl, rfl⟩
  | succ n ih =>
    obtain ⟨crc, h, hl⟩ := ih (s := s.recompute p) (p := p + 1)
    exact ⟨crc, h, by simpa using hl⟩

theorem State.recomputePages_readByte (p n x : Nat) : (s.recomputePages p n).readByte x = s.readByte x := by
  obtain ⟨crc, h, -⟩ := State.recomputePages_frame (s := s) p n
  rw [h]
  rfl

theorem State.checksum_recomputePages (p n q : Nat) (h : p + n ≤ s.crc.length) :
    (s.recomputePages p n).checksum q =
      if p ≤ q ∧ q < p + n then crc8Fn s.cfg (s.pageBytes q) else s.checksum q := by
  induction n generalizing s p with
  | zero =>
    rw [if_neg (by omega)]
    rfl
  | succ n ih =>
    rw [State.recomputePages, ih (p + 1) (by simpa using (by omega : p + 1 + n ≤ s.crc.length))]
    by_cases hq : q = p
    · subst hq
      rw [if_neg (by omega), if_pos (by omega), State.checksum_recompute_self (by omega)]
    · by_cases hin : p + 1 ≤ q ∧ q < p + 1 + n
      · rw [if_pos hin, if_pos (by omega)]
        rfl
      · rw [if_neg hin, if_neg (by omega), State.checksum_recompute_of_ne hq]

/-! ### Guards -/

theorem withPage_of_lt {p : Nat} {k : State → Result} (h : p < s.cfg.pageCount) : withPage p s k = k s := if_pos h

theorem withPage_next {p : Nat} {k : State → Result} (h : withPage p s k = .next t) :
    p < s.cfg.pageCount ∧ k s = .next t := by
  unfold withPage at h
  split at h
  · exact ⟨‹_›, h⟩
  · cases h

theorem inPhase_of_eq {ph : Phase} {k : State → Result} (h : s.phase = ph) : inPhase ph s k = k s := if_pos h

theorem inPhase_next {ph : Phase} {k : State → Result} (h : inPhase ph s k = .next t) :
    s.phase = ph ∧ k s = .next t := by
  unfold inPhase at h
  split at h
  · exact ⟨‹_›, h⟩
  · cases h

theorem selectPage_cases (p : Byte) (ph : Phase) (s : State) :
    (p.toNat < s.cfg.pageCount ∧ selectPage p ph s = .next (s.setPhase ph)) ∨
      (¬p.toNat < s.cfg.pageCount ∧ selectPage p ph s = .next s.endTransaction) := by
  unfold selectPage State.pageValid
  by_cases h : p.toNat < s.cfg.pageCount <;> simp [h]

/-! ### The shape of the state -/

/-- `t` has the shape of `s` but for phase, inputs and trace: what every operation over the scratchpad keeps. -/
structure State.SameShape (s t : State) : Prop where
  cfg : t.cfg = s.cfg
  crc : t.crc.length = s.crc.length
  mem : Memory.wf s.cfg s.mem = true → Memory.wf t.cfg t.mem = true

theorem State.SameShape.rfl : State.SameShape s s := ⟨Eq.refl _, Eq.refl _, id⟩

theorem State.SameShape.trans {u : State} (h : State.SameShape s t) (h' : State.SameShape t u) :
    State.SameShape s u :=
  ⟨h'.cfg.trans h.cfg, h'.crc.trans h.crc, fun hm => h'.mem (h.mem hm)⟩

theorem State.sameShape_writeByte {a : Nat} (b : Byte) (ha : a < s.cfg.memSize) :
    State.SameShape s (s.writeByte a b) :=
  ⟨Eq.refl _, Eq.refl _, fun hm => Memory.wf_write s.cfg s.mem a b hm ha⟩

theorem State.sameShape_writeBytes (bs : List Byte) (a : Nat) (ha : a + bs.length ≤ s.cfg.memSize) :
    State.SameShape s (s.writeBytes a bs) := by
  induction bs generalizing s a with
  | nil => exact .rfl
  | cons b bs ih =>
    rw [List.length_cons] at ha
    have h1 : State.SameShape s (s.writeByte a b) := State.sameShape_writeByte b (by omega)
    exact h1.trans (ih (a + 1) (by rw [h1.cfg]; omega))

theorem State.sameShape_recompute (p : Nat) : State.SameShape s (s.recompute p) :=
  ⟨Eq.refl _, by simp, id⟩

theorem State.sameShape_recomputePages (p n : Nat) : State.SameShape s (s.recomputePages p n) := by
  obtain ⟨crc, h, hl⟩ := State.recomputePages_frame (s := s) p n
  rw [h]
  exact ⟨Eq.refl _, hl, id⟩

theorem State.sameShape_storeFromBus {a : Nat} (b : Byte) (ha : a < s.cfg.memSize) :
    State.SameShape s (s.storeFromBus a b) := by
  unfold State.storeFromBus
  split
  · exact .rfl
  · exact State.sameShape_writeByte b ha

/-- Reset's memory is in the canonical form. -/
theorem State.resetWith_mem_wf (c : Config) : Memory.wf c (State.resetWith c).mem = true := rfl

end Sys2Proof.Machine
end

