-- ==== Sys2Proof/Laws/PerInstr.lean ====
section
/-! SUPPORT. What holds of every instruction as syntax, one lemma per constructor. -/

namespace Sys2Proof.Laws.CommandByteSelects

/-- The first byte of a well-formed instruction's encoding selects its command; the page index byte follows exactly for
the commands that take one, and nothing else (30_encoding.md R71 to R75, R77). -/
def Statement (i : Instr) : Prop :=
  i.wellFormed = true →
    ∃ b, (decodeCommand b = .complete i ∧ encode i = [b]) ∨
      ∃ c p, decodeCommand b = .paged c ∧ b = c.opcode ∧ c.instr p = i ∧ encode i = [b, p]

theorem convt : Statement .convt := fun _ => ⟨0x44#8, .inl ⟨rfl, rfl⟩⟩

theorem cpsp (p : Byte) : Statement (.cpsp p) := fun _ => ⟨0x48#8, .inr ⟨.cpsp, p, rfl, rfl, rfl, rfl⟩⟩

theorem wrsp (p : Byte) : Statement (.wrsp p) := fun _ => ⟨0x4E#8, .inr ⟨.wrsp, p, rfl, rfl, rfl, rfl⟩⟩

theorem convv : Statement .convv := fun _ => ⟨0xB4#8, .inl ⟨rfl, rfl⟩⟩

theorem recallMem (p : Byte) : Statement (.recallMem p) :=
  fun _ => ⟨0xB8#8, .inr ⟨.recallMem, p, rfl, rfl, rfl, rfl⟩⟩

theorem rdsp (p : Byte) : Statement (.rdsp p) := fun _ => ⟨0xBE#8, .inr ⟨.rdsp, p, rfl, rfl, rfl, rfl⟩⟩

theorem cmd (c : Byte) : Statement (.cmd c) := by
  intro h
  refine ⟨c, .inl ⟨?_, rfl⟩⟩
  simp only [Instr.wellFormed, assignedOpcodes, List.contains_eq_mem, List.mem_cons, List.not_mem_nil, or_false,
    Bool.not_eq_true', decide_eq_false_iff_not, not_or] at h
  obtain ⟨h1, h2, h3, h4, h5, h6⟩ := h
  simp [decodeCommand, h1, h2, h3, h4, h5, h6]

end Sys2Proof.Laws.CommandByteSelects
end

