-- ==== Sys2Proof/Laws/Step.lean ====
section
/-! SUPPORT. Everything a step can do, said once: one case per row of the transition table (40_commands.md R117) and one
per shape of application-port operation. Invariants are case analyses over these. -/

namespace Sys2Proof.Machine

/-- What a completed application-port operation has done to the state `s` it began in. -/
inductive AppMove (s : State) (op : AppOp) : State → Prop
  | read (r : AppResult) : AppMove s op (s.answer op r)
  | measure (a : Nat) (bytes : Byte × Byte) (ha : a = 1 ∨ a = 5) (hp : 0 < s.cfg.pageCount) :
      AppMove s op ((s.storeMeasurement a bytes).answer op .done)
  | vad (h : Half) : AppMove s op ((s.setVad h).answer op .done)
  | vdd (h : Half) : AppMove s op ((s.setVdd h).answer op .done)
  | write (pos : Nat) (bytes : List Byte) (hop : op = .writeRange pos bytes) (hpos : pos < s.cfg.memSize) :
      AppMove s op (((s.writeBytes pos (bytes.take (s.fitting pos bytes.length))).recomputeTouched pos
        (s.fitting pos bytes.length)).answer op (.written (s.fitting pos bytes.length == bytes.length)))

theorem execApp_cases {op : AppOp} {s t : State} (h : execApp op s = .next t) : AppMove s op t := by
  cases op with
  | setTemperatureReal x =>
    cases x with
    | rational q =>
      simp only [execApp, setTemperatureReal] at h
      obtain ⟨hp, h⟩ := withPage_next h
      cases h
      exact .measure 1 _ (.inl rfl) hp
    | notRational => cases h
  | setTemperatureInt n =>
    simp only [execApp, setTemperatureInt] at h
    obtain ⟨hp, h⟩ := withPage_next h
    cases h
    exact .measure 1 _ (.inl rfl) hp
  | getTemperature =>
    simp only [execApp, getTemperature] at h
    obtain ⟨-, h⟩ := withPage_next h
    cases h
    exact .read _
  | setVADVoltage v =>
    simp only [execApp, setVADVoltage, withVoltage] at h
    split at h
    · cases h
      exact .vad _
    · cases h
  | getVADVoltage =>
    cases h
    exact .read _
  | setVDDVoltage v =>
    simp only [execApp, setVDDVoltage, withVoltage] at h
    split at h
    · cases h
      exact .vdd _
    · cases h
  | getVDDVoltage =>
    cases h
    exact .read _
  | setCurrent i =>
    simp only [execApp, setCurrent] at h
    split at h
    · obtain ⟨hp, h⟩ := withPage_next h
      cases h
      exact .measure 5 _ (.inr rfl) hp
    · cases h
  | getCurrent =>
    simp only [execApp, getCurrent] at h
    obtain ⟨-, h⟩ := withPage_next h
    cases h
    exact .read _
  | readRange pos len =>
    simp only [execApp, readRange] at h
    split at h <;> cases h <;> exact .read _
  | writeRange pos bytes =>
    simp only [execApp, writeRange] at h
    split at h
    · cases h
      exact .read _
    · cases h
      exact .write pos bytes rfl (by omega)
  | checksumOf p =>
    simp only [execApp, checksumOf] at h
    split at h
    · cases h
      exact .read _
    · cases h

/-- One row of R117, or one act of the outside that is no row of it. -/
inductive Move (s : State) : State → Prop
  | wait (hi : s.inputs = []) : Move s s
  | start (rest : List Input) (hi : s.inputs = .start :: rest) (hp : s.phase = .idle) :
      Move s (s.takeInput.setPhase .cmd)
  | app (op : AppOp) (rest : List Input) (t : State) (hi : s.inputs = .app op :: rest) (hp : s.phase = .idle)
      (h : AppMove s.takeInput op t) : Move s t
  | unasked (inp : Input) (rest : List Input) (hi : s.inputs = inp :: rest) (hb : inp.fromBus = true)
      (hs : inp ≠ .start) (h : s.phase.asksFor inp = false) : Move s s.takeInput
  | fetchFail (rest : List Input) (hi : s.inputs = .recv .fail :: rest)
      (hp : s.phase = .cmd ∨ ∃ c, s.phase = .idx c) : Move s (s.received .fail).endTransaction
  | paged (b : Byte) (c : PagedCommand) (rest : List Input) (hi : s.inputs = .recv (.byte b) :: rest)
      (hp : s.phase = .cmd) (hc : decodeCommand b = .paged c) : Move s ((s.received (.byte b)).setPhase (.idx c))
  | convt (b : Byte) (rest : List Input) (hi : s.inputs = .recv (.byte b) :: rest) (hp : s.phase = .cmd)
      (hc : decodeCommand b = .complete .convt) (hz : 0 < s.cfg.pageCount) :
      Move s ((s.received (.byte b)).recompute 0).endTransaction
  | convv (b : Byte) (rest : List Input) (hi : s.inputs = .recv (.byte b) :: rest) (hp : s.phase = .cmd)
      (hc : decodeCommand b = .complete .convv) (hz : 0 < s.cfg.pageCount) :
      Move s (((s.received (.byte b)).writeHalf 3 s.selectedVoltage).recompute 0).endTransaction
  | unrecognised (b : Byte) (rest : List Input) (hi : s.inputs = .recv (.byte b) :: rest) (hp : s.phase = .cmd)
      (hc : decodeCommand b = .complete (.cmd b)) :
      Move s ((s.received (.byte b)).reportError b).endTransaction
  | badIndex (c : PagedCommand) (p : Byte) (rest : List Input) (hi : s.inputs = .recv (.byte p) :: rest)
      (hp : s.phase = .idx c) (hv : ¬p.toNat < s.cfg.pageCount) : Move s (s.received (.byte p)).endTransaction
  | inert (c : PagedCommand) (p : Byte) (rest : List Input) (hi : s.inputs = .recv (.byte p) :: rest)
      (hp : s.phase = .idx c) (hc : c = .cpsp ∨ c = .recallMem) (hv : p.toNat < s.cfg.pageCount) :
      Move s ((s.received (.byte p)).setPhase .idle)
  | beginRead (p : Byte) (rest : List Input) (hi : s.inputs = .recv (.byte p) :: rest) (hp : s.phase = .idx .rdsp)
      (hv : p.toNat < s.cfg.pageCount) : Move s ((s.received (.byte p)).setPhase (.rd p 0))
  | beginWrite (p : Byte) (rest : List Input) (hi : s.inputs = .recv (.byte p) :: rest) (hp : s.phase = .idx .wrsp)
      (hv : p.toNat < s.cfg.pageCount) : Move s ((s.received (.byte p)).setPhase (.wr p 0))
  | sendOk (p : Byte) (k : Fin 9) (rest : List Input) (hi : s.inputs = .send .ok :: rest) (hp : s.phase = .rd p k)
      (hv : p.toNat < s.cfg.pageCount) : Move s ((s.sent (s.responseByte p k) .ok).setPhase (nextSendPhase p k))
  | sendFail (p : Byte) (k : Fin 9) (rest : List Input) (hi : s.inputs = .send .fail :: rest) (hp : s.phase = .rd p k)
      (hv : p.toNat < s.cfg.pageCount) : Move s (s.sent (s.responseByte p k) .fail).endTransaction
  | store (p : Byte) (k : Fin 8) (b : Byte) (rest : List Input) (hi : s.inputs = .recv (.byte b) :: rest)
      (hp : s.phase = .wr p k) (hv : p.toNat < s.cfg.pageCount) (hk : k.val < 7) :
      Move s (((s.received (.byte b)).storeFromBus (byteAddress p k.val) b).setPhase (.wr p ⟨k.val + 1, by omega⟩))
  | storeLast (p : Byte) (k : Fin 8) (b : Byte) (rest : List Input) (hi : s.inputs = .recv (.byte b) :: rest)
      (hp : s.phase = .wr p k) (hv : p.toNat < s.cfg.pageCount) (hk : ¬k.val < 7) :
      Move s (((s.received (.byte b)).storeFromBus (byteAddress p k.val) b).recompute p.toNat).endTransaction
  | dataFail (p : Byte) (k : Fin 8) (rest : List Input) (hi : s.inputs = .recv .fail :: rest) (hp : s.phase = .wr p k)
      (hv : p.toNat < s.cfg.pageCount) : Move s ((s.received .fail).recompute p.toNat).endTransaction

/-- A command byte that completes an instruction selects CONVT, CONVV or the unrecognised command it carries. -/
theorem decodeCommand_complete {b : Byte} {i : Instr} (h : decodeCommand b = .complete i) :
    i = .convt ∨ i = .convv ∨ i = .cmd b := by
  unfold decodeCommand at h
  split_ifs at h <;> simp_all

theorem selectPage_next {p : Byte} {ph : Phase} {s t : State} (h : selectPage p ph s = .next t) :
    (p.toNat < s.cfg.pageCount ∧ t = s.setPhase ph) ∨ (¬p.toNat < s.cfg.pageCount ∧ t = s.endTransaction) := by
  rcases selectPage_cases p ph s with ⟨hv, h'⟩ | ⟨hv, h'⟩ <;> rw [h'] at h <;> cases h
  · exact .inl ⟨hv, rfl⟩
  · exact .inr ⟨hv, rfl⟩

theorem fetchIndex_move {c : PagedCommand} {p : Byte} {s t : State} {rest : List Input}
    (hi : s.inputs = .recv (.byte p) :: rest) (hp : s.phase = .idx c)
    (h : exec (c.instr p) (s.received (.byte p)) = .next t) : Move s t := by
  have hp' : (s.received (.byte p)).phase = .idx c := hp
  cases c with
  | rdsp =>
    simp only [PagedCommand.instr, exec, execRdsp, hp', inPhase_of_eq] at h
    rcases selectPage_next h with ⟨hv, rfl⟩ | ⟨hv, rfl⟩
    · exact .beginRead p rest hi hp hv
    · exact .badIndex .rdsp p rest hi hp hv
  | wrsp =>
    simp only [PagedCommand.instr, exec, execWrsp, hp', inPhase_of_eq] at h
    rcases selectPage_next h with ⟨hv, rfl⟩ | ⟨hv, rfl⟩
    · exact .beginWrite p rest hi hp hv
    · exact .badIndex .wrsp p rest hi hp hv
  | cpsp =>
    simp only [PagedCommand.instr, exec, execCpsp, hp', inPhase_of_eq] at h
    rcases selectPage_next h with ⟨hv, rfl⟩ | ⟨hv, rfl⟩
    · exact .inert .cpsp p rest hi hp (.inl rfl) hv
    · exact .badIndex .cpsp p rest hi hp hv
  | recallMem =>
    simp only [PagedCommand.instr, exec, execRecall, hp', inPhase_of_eq] at h
    rcases selectPage_next h with ⟨hv, rfl⟩ | ⟨hv, rfl⟩
    · exact .inert .recallMem p rest hi hp (.inr rfl) hv
    · exact .badIndex .recallMem p rest hi hp hv

theorem fetchCommand_move {b : Byte} {s t : State} {rest : List Input} (hi : s.inputs = .recv (.byte b) :: rest)
    (hp : s.phase = .cmd) (h : fetchCommand (.byte b) s = .next t) : Move s t := by
  have hp' : (s.received (.byte b)).phase = .cmd := hp
  unfold fetchCommand at h
  simp only at h
  split at h
  · rename_i i hc
    rcases decodeCommand_complete hc with rfl | rfl | rfl
    · simp only [exec, execConvt, inPhase_of_eq hp'] at h
      obtain ⟨hz, h⟩ := withPage_next h
      cases h
      exact .convt b rest hi hp hc hz
    · simp only [exec, execConvv, inPhase_of_eq hp'] at h
      obtain ⟨hz, h⟩ := withPage_next h
      cases h
      exact .convv b rest hi hp hc hz
    · simp only [exec, execCmd, inPhase_of_eq hp'] at h
      cases h
      exact .unrecognised b rest hi hp hc
  · rename_i c hc
    cases h
    exact .paged b c rest hi hp hc

theorem sendStep_move {p : Byte} {k : Fin 9} {a : SendAnswer} {s t : State} {rest : List Input}
    (hi : s.inputs = .send a :: rest) (hp : s.phase = .rd p k) (h : exec (.rdsp p) s = .next t) : Move s t := by
  simp only [exec, execRdsp, hp, inPhase_of_eq] at h
  obtain ⟨hv, h⟩ := withPage_next h
  unfold sendStep at h
  cases a <;> simp only [hi] at h <;> cases h
  · exact .sendOk p k rest hi hp hv
  · exact .sendFail p k rest hi hp hv

theorem dataStep_move {p : Byte} {k : Fin 8} {a : RecvAnswer} {s t : State} {rest : List Input}
    (hi : s.inputs = .recv a :: rest) (hp : s.phase = .wr p k) (h : exec (.wrsp p) s = .next t) : Move s t := by
  simp only [exec, execWrsp, hp, inPhase_of_eq] at h
  obtain ⟨hv, h⟩ := withPage_next h
  unfold dataStep at h
  cases a with
  | byte b =>
    simp only [hi] at h
    split at h
    · rename_i hk
      cases h
      exact .store p k b rest hi hp hv hk
    · rename_i hk
      cases h
      exact .storeLast p k b rest hi hp hv hk
  | fail =>
    simp only [hi] at h
    cases h
    exact .dataFail p k rest hi hp hv

/-- Everything a step that answers a next state can have done. -/
theorem step_cases {s t : State} (h : step s = .next t) : s.cfg.ok = true ∧ Move s t := by
  unfold step blockStep at h
  split at h
  · cases h
  split at h
  · cases h
  rename_i hpc him
  refine ⟨by simp_all [Config.ok], ?_⟩
  unfold portStep at h
  split at h
  · rename_i hi
    cases h
    exact .wait hi
  · rename_i rest hi
    unfold startStep at h
    split at h
    · cases h
      exact .start rest hi ‹_›
    · cases h
  · rename_i op rest hi
    unfold appStep at h
    split at h
    · exact .app op rest t hi ‹_› (execApp_cases h)
    · cases h
  · rename_i a rest hi
    unfold recvStep at h
    split at h
    · rename_i hp
      cases a with
      | byte b => exact fetchCommand_move hi hp h
      | fail =>
        cases h
        exact .fetchFail rest hi (.inl hp)
    · rename_i c hp
      cases a with
      | byte p => exact fetchIndex_move hi hp h
      | fail =>
        cases h
        exact .fetchFail rest hi (.inr ⟨c, hp⟩)
    · rename_i p k hp
      exact dataStep_move hi hp h
    · rename_i hp
      cases h
      exact .unasked (.recv a) rest hi rfl (by simp) (by simp [hp, Phase.asksFor])
    · rename_i p k hp
      cases h
      exact .unasked (.recv a) rest hi rfl (by simp) (by simp [hp, Phase.asksFor])
  · rename_i a rest hi
    unfold sendAnswerStep at h
    split at h
    · rename_i p k hp
      exact sendStep_move hi hp h
    all_goals
      rename_i hp
      cases h
      exact .unasked (.send a) rest hi rfl (by simp) (by simp [hp, Phase.asksFor])

end Sys2Proof.Machine
end

