-- ==== Sys2Proof/Tests/Slice0.lean ====
section
/-! SUPPORT. Tests: ill-formed terms, words of every command, one-step vectors of 95_test_vectors.md, and for every
statement with hypotheses a witness that meets them. The expected values are the spec's. -/

namespace Sys2Proof.Tests

open Sys2Proof Sys2Proof.Machine

/-! ### Helpers -/

/-- The configuration T1 of 95_test_vectors.md section 1. -/
def t1 : Config :=
  { referenceConfig with
    pageCount := 1, factoryImage := List.replicate 8 0xFF#8, vadReset := 0xFFFF#16, vddReset := 0x0123#16 }

/-- T0 after reset, in a phase, with acts of the outside pending. -/
def at0 (ph : Phase) (ins : List Input) : State := { State.reset with phase := ph, inputs := ins }

/-- T1 after reset, in a phase, with acts of the outside pending. -/
def at1 (ph : Phase) (ins : List Input) : State := { State.resetWith t1 with phase := ph, inputs := ins }

/-- A received byte. -/
def rx (n : Nat) : Input := .recv (.byte (BitVec.ofNat 8 n))

/-- The next state of an outcome, the reset state where there is none. -/
def nextOf : Result → State
  | .next t => t
  | .fault _ | .refused _ => State.reset

/-- The outcome is a next state in `IDLE`. -/
def idles : Result → Bool
  | .next t => t.phase = .idle
  | .fault _ | .refused _ => false

/-- The bytes of a page and its checksum after a step. -/
def pageAfter (s : State) (p : Nat) : List Nat := ((nextOf (step s)).responseBytes (BitVec.ofNat 8 p)).map BitVec.toNat

/-- What the ports show in a step. -/
def shown (s : State) : List Event := (nextOf (step s)).trace

/-! ### Ill-formed terms -/

theorem test_assigned_codes_are_no_cmd :
    (assignedOpcodes.map fun b => (Instr.cmd b).wellFormed) = [false, false, false, false, false, false] := by decide

theorem test_bad_page_counts :
    (({ referenceConfig with pageCount := 0, factoryImage := [] } : Config).ok,
      ({ referenceConfig with pageCount := 9, factoryImage := List.replicate 72 0#8 } : Config).ok) = (false, false) := by
  decide

theorem test_bad_image : ({ referenceConfig with factoryImage := List.replicate 15 0#8 } : Config).ok = false := by decide

theorem test_bad_memory_order : Memory.wf referenceConfig [(2, 1#8), (1, 1#8)] = false := by decide

theorem test_bad_memory_reset_value : Memory.wf referenceConfig [(0, 0x0B#8)] = false := by decide

theorem test_bad_memory_address : Memory.wf referenceConfig [(16, 1#8)] = false := by decide

theorem test_bad_phase_page : (at0 (.rd 2#8 0) []).wf = false := by decide

theorem test_bad_checksum_slots : ({ State.reset with crc := [0#8] } : State).wf = false := by decide

/-! ### Words, bit by bit from 30_encoding.md section 4 -/

theorem test_word_convt : decode [0b01000100#8] = .ok (.convt, []) := rfl

theorem test_word_cpsp : decode [0b01001000#8, 0b00000001#8] = .ok (.cpsp 1#8, []) := rfl

theorem test_word_wrsp : decode [0b01001110#8, 0b00000010#8, 0b10101010#8] = .ok (.wrsp 2#8, [0xAA#8]) := rfl

theorem test_word_convv : decode [0b10110100#8, 0b00000001#8] = .ok (.convv, [1#8]) := rfl

theorem test_word_recall : decode [0b10111000#8, 0b11111111#8] = .ok (.recallMem 0xFF#8, []) := rfl

theorem test_word_rdsp : decode [0b10111110#8, 0b00000000#8] = .ok (.rdsp 0#8, []) := rfl

theorem test_word_cmd : decode [0b01001111#8] = .ok (.cmd 0x4F#8, []) := rfl

theorem test_table_words :
    [(8, 0x44), (16, 0x0148), (16, 0x014E), (8, 0xB4), (8, 0xB8), (16, 0x01BE), (8, 0x00)].map
        (fun x => decodeTableWord x.1 x.2) =
      [some .convt, some (.cpsp 1#8), some (.wrsp 1#8), some .convv, some (.recallMem 0#8), some (.rdsp 1#8),
        some (.cmd 0#8)] := by decide +kernel

theorem test_placed_words_run :
    [(8, 0x44), (16, 0x0148), (16, 0x014E), (8, 0xB4), (8, 0xB8), (16, 0x01BE), (8, 0x00)].map
        (fun x => (nextOf (step (State.reset.withFetchWord x.1 x.2))).phase) =
      [.idle, .idle, .wr 1#8 0, .idle, .idle, .rd 1#8 0, .idle] := by decide +kernel

/-! ### Checksum check values, 95_test_vectors.md section 3 -/

theorem test_crc_digits : crc8Default [0x31, 0x32, 0x33, 0x34, 0x35, 0x36, 0x37, 0x38, 0x39] = 0xA1#8 := by decide +kernel

theorem test_crc_serial : crc8Default [0x02, 0x1C, 0xB8, 0x01, 0x00, 0x00, 0x00] = 0xA2#8 := by decide +kernel

theorem test_crc_bytes :
    [0x00#8, 0x01#8, 0x0B#8, 0x80#8, 0xFF#8].map (fun b => crc8Default [b]) = [0x00#8, 0x5E#8, 0x20#8, 0x8C#8, 0x35#8] := by decide +kernel

theorem test_crc_corrupted : hostCheck referenceConfig [0x0B, 0, 0, 0, 0, 0, 0, 0, 0xEE] = false := by decide +kernel

/-- With another `CRC8_FN` the page bytes of V-WR-1's last step are the same, and the checksum is that function's. -/
theorem test_crc_parameter :
    let s := { at0 (.wr 1#8 7) [rx 8] with cfg := { referenceConfig with crcFn := .external 3 } }
    (nextOf (step s)).responseBytes 1#8 =
      [0, 0, 0, 0, 0, 0, 0, 8] ++ [Config.externalCrc8 3 [0, 0, 0, 0, 0, 0, 0, 8]] := rfl

/-! ### Reset, V-RS-1 to V-RS-4 -/

theorem test_reset_t0 :
    (State.reset.responseBytes 0#8, State.reset.responseBytes 1#8) =
      ([0x0B, 0, 0, 0, 0, 0, 0, 0, 0xEF], [0, 0, 0, 0, 0, 0, 0, 0, 0]) := by decide +kernel

theorem test_reset_t1 :
    ((State.resetWith t1).responseBytes 0#8, (State.resetWith t1).vadReg, (State.resetWith t1).vddReg) =
      ([0x8F, 0xFF, 0xFF, 0xFF, 0xFF, 0xFF, 0xFF, 0xFF, 0x7C], 0xFFFF#16, 0x0123#16) := by decide +kernel

theorem test_reset_image_bits :
    ([0xF0#8, 0x04#8].map fun b =>
        (State.resetWith { referenceConfig with factoryImage := b :: List.replicate 15 0#8 }).responseBytes 0#8) =
      [[0x8B, 0, 0, 0, 0, 0, 0, 0, 0x7D], [0x0F, 0, 0, 0, 0, 0, 0, 0, 0xFA]] := by decide +kernel

/-! ### Commands, one step each -/

/-- CONVT recomputes page 0's checksum (here a stale one) and leaves the bytes (V-CT-1). -/
theorem test_convt :
    pageAfter { at0 .cmd [rx 0x44] with crc := [0#8, 0#8, 0#8] } 0 = [0x0B, 0, 0, 0, 0, 0, 0, 0, 0xEF] := by decide +kernel

/-- V-CV-1. -/
theorem test_convv_battery :
    pageAfter { at0 .cmd [rx 0xB4] with vddReg := 500#16, vadReg := 77#16 } 0 =
      [0x0B, 0, 0, 0xF4, 0x01, 0, 0, 0, 0xD9] := by decide +kernel

/-- V-CV-6: bits 15 to 10 of the register are copied too. -/
theorem test_convv_external :
    pageAfter { at1 .cmd [rx 0xB4] with mem := [(0, 0x07#8), (7, 0x00#8)] } 0 =
      [0x07, 0xFF, 0xFF, 0xFF, 0xFF, 0xFF, 0xFF, 0x00, 0xF1] := by decide +kernel

/-- V-CP-3 and V-CP-2: the same effect for an invalid and for a valid index. -/
theorem test_cpsp :
    ([2, 1].map fun p => (nextOf (step (at0 (.idx .cpsp) [rx p]))).phase) = [.idle, .idle] ∧
      pageAfter (at0 (.idx .cpsp) [rx 1]) 1 = [0, 0, 0, 0, 0, 0, 0, 0, 0] := by decide +kernel

/-- V-RC-2: the factory image is not reloaded. -/
theorem test_recall :
    pageAfter { at0 (.idx .recallMem) [rx 1] with mem := [(8, 0x11#8)], crc := [0xEF#8, 0x17#8, 0#8] } 1 =
      [0x11, 0, 0, 0, 0, 0, 0, 0, 0x17] := by decide +kernel

/-- V-RD-1: the first byte is byte 0, the ninth the cached checksum. -/
theorem test_rdsp_bytes :
    (shown (at0 (.rd 0#8 0) [.send .ok]), shown (at0 (.rd 0#8 8) [.send .ok])) =
      ([.send 0x0B#8 .ok], [.send 0xEF#8 .ok]) := by decide +kernel

/-- V-RD-4 and V-RD-5: an index out of range sends nothing. -/
theorem test_rdsp_index :
    ([0, 1, 2, 0xFF].map fun p => (nextOf (step (at0 (.idx .rdsp) [rx p]))).phase) =
      [.rd 0#8 0, .rd 1#8 0, .idle, .idle] := by decide +kernel

/-- V-WR-1, the last byte. -/
theorem test_wrsp_last :
    pageAfter { at0 (.wr 1#8 7) [rx 8] with
        mem := [(8, 1#8), (9, 2#8), (10, 3#8), (11, 4#8), (12, 5#8), (13, 6#8), (14, 7#8)] } 1 =
      [1, 2, 3, 4, 5, 6, 7, 8, 0x83] := by decide +kernel

/-- V-WR-6: byte 0 is written, byte 1 is discarded. -/
theorem test_wrsp_read_only :
    (pageAfter (at0 (.wr 0#8 0) [rx 0x03]) 0).take 2 = [0x03, 0] ∧
      (pageAfter (at0 (.wr 0#8 1) [rx 0xEE]) 0).take 2 = [0x0B, 0] := by decide +kernel

/-- V-UN-1 and V-UN-4. -/
theorem test_cmd :
    (shown (at0 .cmd [rx 0x33]), shown (at0 .cmd [rx 0x4F])) =
      ([.recv (.byte 0x33#8), .report 0x33#8], [.recv (.byte 0x4F#8), .report 0x4F#8]) := by decide +kernel

/-- V-TX-1 and V-TX-2: a failed receive ends the transaction without a report. -/
theorem test_receive_failures :
    (shown (at0 .cmd [.recv .fail]), shown (at0 (.idx .rdsp) [.recv .fail])) = ([.recv .fail], [.recv .fail]) ∧
      idles (step (at0 .cmd [.recv .fail])) = true ∧ idles (step (at0 (.idx .rdsp) [.recv .fail])) = true := by decide +kernel

/-! ### Application port -/

/-- V-TE-4, V-TE-5, V-TE-6, V-TE-8 and V-TE-2: truncation is toward zero and the clamp comes first. -/
theorem test_temperature_real :
    ([-1 / 2, -41 / 4, -14079 / 256, -1 / 1000, 130].map (encTempReal 0xFF#8)) =
      [(0x80#8, 0xFF#8), (0xC0#8, 0xF5#8), (0x01#8, 0xC9#8), (0x00#8, 0x00#8), (0x00#8, 0x7D#8)] := by decide +kernel

/-- V-TE-21. -/
theorem test_temperature_mask : encTempReal 0xF8#8 (6403 / 256) = (0x00#8, 0x19#8) := by decide +kernel

/-- V-TE-1. -/
theorem test_temperature_real_step :
    pageAfter (at0 .idle [.app (.setTemperatureReal (.rational (401 / 16)))]) 0 =
      [0x0B, 0x10, 0x19, 0, 0, 0, 0, 0, 0xD9] := by decide +kernel

/-- V-TE-13 and V-TE-16. -/
theorem test_temperature_int :
    pageAfter (at0 .idle [.app (.setTemperatureInt 40)]) 0 = [0x0B, 0, 0x28, 0, 0, 0, 0, 0, 0xF8] ∧
      pageAfter (at0 .idle [.app (.setTemperatureInt (-56))]) 0 = [0x0B, 0, 0xC9, 0, 0, 0, 0, 0, 0xE6] := by decide +kernel

/-- V-TE-11's getter: the byte is read as signed. -/
theorem test_get_temperature :
    (nextOf (step { at0 .idle [.app .getTemperature] with mem := [(2, 0xC9#8)] })).trace =
      [.app .getTemperature (.number (-55))] := by decide +kernel

/-- V-VO-2 and V-VO-6. -/
theorem test_voltage :
    (nextOf (step (at0 .idle [.app (.setVADVoltage 2000)]))).vadReg = 0x03D0#16 ∧
      (nextOf (step (at0 .idle [.app (.setVDDVoltage 500)]))).vddReg = 0x01F4#16 := by decide +kernel

/-- V-VO-8 and V-VO-9. -/
theorem test_get_voltage :
    (decVolt (State.resetWith t1).vadReg).toNat = 1023 ∧ (decVolt (State.resetWith t1).vddReg).toNat = 291 := by decide +kernel

/-- V-CU-3, and V-CU-8 and V-CU-10 for the law of R172. -/
theorem test_current :
    pageAfter (at0 .idle [.app (.setCurrent (-100))]) 0 = [0x0B, 0, 0, 0, 0, 0x9C, 0xFF, 0, 0xFD] ∧
      encCurrent (-1025) = (0xFF#8, 0xFF#8) ∧ encCurrent (-32768) = (0x00#8, 0xFC#8) := by decide +kernel

/-- The getter on the sign-inconsistent bytes of P3. -/
theorem test_get_current : decCurrent 0xA1#8 0xA2#8 = -23903 := by decide +kernel

/-- V-MS-2 and V-MS-3. -/
theorem test_read_range :
    shown (at0 .idle [.app (.readRange 14 4)]) = [.app (.readRange 14 4) (.bytes [0#8, 0#8] false)] ∧
      shown (at0 .idle [.app (.readRange 16 0)]) = [.app (.readRange 16 0) .failed] := by decide +kernel

/-- V-MS-5: across a page boundary both checksums are recomputed. -/
theorem test_write_range :
    let s := at0 .idle [.app (.writeRange 5 [0xA1, 0xA2, 0xA3, 0xA4, 0xA5, 0xA6])]
    pageAfter s 0 = [0x0B, 0, 0, 0, 0, 0xA1, 0xA2, 0xA3, 0x80] ∧
      pageAfter s 1 = [0xA4, 0xA5, 0xA6, 0, 0, 0, 0, 0, 0x70] := by decide +kernel

/-- V-MS-6: a write that runs past the end is cut off, and page 0 is not touched. -/
theorem test_write_range_truncated :
    pageAfter (at0 .idle [.app (.writeRange 14 [1, 2, 3, 4])]) 1 = [0, 0, 0, 0, 0, 0, 1, 2, 0x78] := by decide +kernel

/-- V-MS-11. -/
theorem test_checksum_of :
    shown (at0 .idle [.app (.checksumOf 0)]) = [.app (.checksumOf 0) (.checksum 0xEF#8)] :=
  by decide +kernel

/-- V-MS-12. -/
theorem test_checksum_of_refused :
    step (at0 .idle [.app (.checksumOf 2)]) = .refused .checksumPageOutOfRange := rfl

/-! ### Witnesses: for every statement with hypotheses, a state and operands that meet them, clause by clause -/

theorem witness_EncodedInstructionDecodesToItself :
    ((Instr.rdsp 0xFF#8).wellFormed, (Instr.cmd 0x45#8).wellFormed, (Instr.cmd 0x43#8).wellFormed) = (true, true, true) := by
  decide

theorem witness_DecodedInstructionEncodesToItsBytes :
    decode [0xBE#8, 0x01#8, 0x05#8] = .ok (.rdsp 0x01#8, [0x05#8]) := rfl

theorem witness_EveryCommandByteSelectsOneRow : (0x43#8 : Byte) ∉ assignedOpcodes := by decide

theorem witness_StepRunsTheDecodedInstruction :
    State.reset.cfg.ok = true ∧
      ((at0 .cmd [rx 0x44]).phase = .cmd ∧ (at0 .cmd [rx 0x44]).inputs = .recv (.byte 0x44#8) :: [] ∧
        decode [0x44#8] = .ok (.convt, [])) ∧
      ((at0 (.idx .wrsp) [rx 1]).phase = .idx .wrsp ∧
        (at0 (.idx .wrsp) [rx 1]).inputs = .recv (.byte 0x01#8) :: [] ∧
        decode [PagedCommand.wrsp.opcode, 0x01#8] = .ok (.wrsp 0x01#8, [])) ∧
      ((at0 (.rd 1#8 8) [.send .ok]).phase = .rd 1#8 8 ∧ (at0 (.rd 1#8 8) [.send .ok]).inputs = .send .ok :: []) ∧
      ((at0 (.wr 1#8 7) [.recv .fail]).phase = .wr 1#8 7 ∧
        (at0 (.wr 1#8 7) [.recv .fail]).inputs = .recv .fail :: []) :=
  ⟨rfl, ⟨rfl, rfl, rfl⟩, ⟨rfl, rfl, rfl⟩, ⟨rfl, rfl⟩, ⟨rfl, rfl⟩⟩

theorem witness_CommandPhaseStepFollowsItsByte :
    State.reset.cfg.ok = true ∧ (at0 .cmd [.recv .fail]).phase = .cmd ∧
      (at0 .cmd [.recv .fail]).inputs = .recv .fail :: [] ∧
      (at0 .cmd [rx 0xFF]).inputs = .recv (.byte 0xFF#8) :: [] := ⟨rfl, rfl, rfl, rfl⟩

theorem witness_IndexPhaseStepChecksThePage :
    State.reset.cfg.ok = true ∧ (at0 (.idx .cpsp) [.recv .fail]).phase = .idx .cpsp ∧
      (at0 (.idx .cpsp) [.recv .fail]).inputs = .recv .fail :: [] ∧
      ((at0 (.idx .cpsp) [rx 2]).inputs = .recv (.byte 2#8) :: [] ∧ State.reset.cfg.pageCount ≤ (2#8 : Byte).toNat) ∧
      ((at0 (.idx .cpsp) [rx 1]).inputs = .recv (.byte 1#8) :: [] ∧ (1#8 : Byte).toNat < State.reset.cfg.pageCount) := by
  refine ⟨rfl, rfl, rfl, ⟨rfl, ?_⟩, ⟨rfl, ?_⟩⟩ <;> decide

theorem witness_PortsAreServedOnlyWhenIdle :
    State.reset.cfg.ok = true ∧ (at0 .idle [.start]).inputs = .start :: [] ∧ (at0 .cmd [.start]).inputs = .start :: [] ∧
      (at0 .cmd [.app .getCurrent]).inputs = .app .getCurrent :: [] := ⟨rfl, rfl, rfl, rfl⟩

theorem witness_InputsWithoutMeaningAreRefused :
    (¬(1 ≤ ({ referenceConfig with pageCount := 0 } : Config).pageCount ∧
        ({ referenceConfig with pageCount := 0 } : Config).pageCount ≤ 8)) ∧
      (¬(1 ≤ ({ referenceConfig with pageCount := 9 } : Config).pageCount ∧
        ({ referenceConfig with pageCount := 9 } : Config).pageCount ≤ 8)) ∧
      State.reset.cfg.ok = true ∧ (at0 .idle []).phase = .idle ∧
      ((at0 .idle [.app (.checksumOf 2)]).inputs = .app (.checksumOf 2) :: [] ∧ State.reset.cfg.pageCount ≤ 2) ∧
      ((at0 .idle [.app (.setVADVoltage (-1))]).inputs = .app (.setVADVoltage (-1)) :: [] ∧ (-1 : Int) < 0) ∧
      ((at0 .idle [.app (.setVDDVoltage 65536)]).inputs = .app (.setVDDVoltage 65536) :: [] ∧ (65535 : Int) < 65536) ∧
      ((at0 .idle [.app (.setCurrent (-32769))]).inputs = .app (.setCurrent (-32769)) :: [] ∧ (-32769 : Int) < -32768) ∧
      ((at0 .idle [.app (.setCurrent 32768)]).inputs = .app (.setCurrent 32768) :: [] ∧ (32767 : Int) < 32768) ∧
      (at0 .idle [.app (.setTemperatureReal .notRational)]).inputs = .app (.setTemperatureReal .notRational) :: [] ∧
      ((at0 (.wr 0#8 7) [.start]).phase ≠ .idle ∧ (at0 (.wr 0#8 7) [.start]).inputs = .start :: []) ∧
      (at0 (.wr 0#8 7) [.app .getCurrent]).inputs = .app .getCurrent :: [] := by
  refine ⟨?_, ?_, rfl, rfl, ⟨rfl, ?_⟩, ⟨rfl, ?_⟩, ⟨rfl, ?_⟩, ⟨rfl, ?_⟩, ⟨rfl, ?_⟩, rfl, ⟨?_, rfl⟩, rfl⟩ <;> decide

theorem witness_EveryAdmittedInputIsServed :
    (at0 .idle [.app (.checksumOf 1)]).wf = true ∧
      (∀ rest, (at0 .idle [.app (.checksumOf 1)]).inputs = .start :: rest →
        (at0 .idle [.app (.checksumOf 1)]).phase = .idle) ∧
      (∀ op rest, (at0 .idle [.app (.checksumOf 1)]).inputs = .app op :: rest →
        (at0 .idle [.app (.checksumOf 1)]).phase = .idle ∧
          op.admitted (at0 .idle [.app (.checksumOf 1)]).cfg.pageCount = true) := by
  refine ⟨by decide, fun _ _ => rfl, ?_⟩
  intro op rest h
  cases h
  exact ⟨rfl, by decide⟩

theorem witness_UnaskedAnswersChangeNothing :
    State.reset.cfg.ok = true ∧ (at0 .cmd []).inputs = [] ∧
      ((at0 .cmd [.send .ok]).inputs = .send .ok :: [] ∧ (Input.send .ok).fromBus = true ∧ Input.send .ok ≠ .start ∧
        (at0 .cmd [.send .ok]).phase.asksFor (.send .ok) = false) ∧
      ((at0 (.rd 0#8 0) [rx 0]).inputs = rx 0 :: [] ∧ (rx 0).fromBus = true ∧ rx 0 ≠ .start ∧
        (at0 (.rd 0#8 0) [rx 0]).phase.asksFor (rx 0) = false) :=
  ⟨rfl, rfl, ⟨rfl, rfl, nofun, rfl⟩, ⟨rfl, rfl, nofun, rfl⟩⟩

theorem witness_CommandsOutsideTheirPhaseStop :
    (at0 .idle []).phase ≠ .cmd ∧ (at0 .idle []).phase ≠ .idx .cpsp ∧ (at0 .idle []).phase ≠ .idx .recallMem ∧
      ((at0 (.rd 1#8 0) []).phase ≠ .idx .rdsp ∧ ∀ k, (at0 (.rd 1#8 0) []).phase ≠ .rd 0#8 k) ∧
      ((at0 (.wr 1#8 0) []).phase ≠ .idx .wrsp ∧ ∀ k, (at0 (.wr 1#8 0) []).phase ≠ .wr 0#8 k) ∧
      (State.reset.cfg.pageCount ≤ (2#8 : Byte).toNat ∧ (at0 (.rd 2#8 8) []).phase = .rd 2#8 8 ∧
        (at0 (.wr 2#8 7) []).phase = .wr 2#8 7) := by decide

theorem witness_ConvertTemperatureRecomputesPageZero :
    State.reset.cfg.ok = true ∧ State.reset.crc.length = State.reset.cfg.pageCount + 1 ∧ (at0 .cmd []).phase = .cmd := by
  decide

theorem witness_ConvertVoltageCopiesTheSelectedChannel :
    (at1 .cmd []).cfg.ok = true ∧ (at1 .cmd []).crc.length = (at1 .cmd []).cfg.pageCount + 1 ∧ (at1 .cmd []).phase = .cmd := by
  decide

theorem witness_CopyAndRecallHaveNoEffect :
    (at0 (.idx .cpsp) []).phase = .idx .cpsp ∧ (at0 (.idx .recallMem) []).phase = .idx .recallMem := by decide

theorem witness_ReadScratchpadSendsPageThenChecksum :
    (at0 (.idx .rdsp) []).phase = .idx .rdsp ∧ (1#8 : Byte).toNat < State.reset.cfg.pageCount ∧
      ((at0 (.rd 1#8 7) [.send .ok]).phase = .rd 1#8 7 ∧ (7 : Fin 9).val < 8 ∧ (8 : Fin 9).val = (7 : Fin 9).val + 1 ∧
        (at0 (.rd 1#8 7) [.send .ok]).inputs = .send .ok :: []) ∧
      ((at0 (.rd 1#8 8) [.send .ok]).phase = .rd 1#8 8 ∧ (at0 (.rd 1#8 8) [.send .ok]).inputs = .send .ok :: []) ∧
      ((at0 (.rd 1#8 0) [.send .fail]).phase = .rd 1#8 0 ∧
        (at0 (.rd 1#8 0) [.send .fail]).inputs = .send .fail :: []) := by
  refine ⟨rfl, ?_, ⟨rfl, ?_, ?_, rfl⟩, ⟨rfl, rfl⟩, ⟨rfl, rfl⟩⟩ <;> decide

theorem witness_WriteScratchpadStoresThenRecomputes :
    (at0 (.idx .wrsp) []).phase = .idx .wrsp ∧ (0#8 : Byte).toNat < State.reset.cfg.pageCount ∧
      State.reset.crc.length = State.reset.cfg.pageCount + 1 ∧
      ((at0 (.wr 0#8 6) [rx 9]).phase = .wr 0#8 6 ∧ (at0 (.wr 0#8 6) [rx 9]).inputs = .recv (.byte 9#8) :: [] ∧
        (7 : Fin 8).val = (6 : Fin 8).val + 1) ∧
      ((at0 (.wr 0#8 7) [rx 9]).phase = .wr 0#8 7 ∧ (at0 (.wr 0#8 7) [rx 9]).inputs = .recv (.byte 9#8) :: [] ∧
        (7 : Fin 8).val = 7) ∧
      (at0 (.wr 0#8 0) [.recv .fail]).inputs = .recv .fail :: [] := by
  refine ⟨rfl, ?_, rfl, ⟨rfl, rfl, rfl⟩, ⟨rfl, rfl, rfl⟩, rfl⟩
  decide

theorem witness_UnrecognisedCommandReportsOnce : (at0 .cmd []).phase = .cmd ∧ (0x4D#8 : Byte) ∉ assignedOpcodes := by
  decide

theorem witness_CommandsWithoutStoresKeepMemory :
    (∃ t, exec .convt (at0 .cmd []) = .next t) ∧ (∃ t, exec (.cpsp 0#8) (at0 (.idx .cpsp) []) = .next t) ∧
      (∃ t, exec (.recallMem 0#8) (at0 (.idx .recallMem) []) = .next t) ∧
      (∃ t, exec (.rdsp 1#8) (at0 (.rd 1#8 8) [.send .ok]) = .next t) ∧
      (∃ t, exec (.cmd 0#8) (at0 .cmd []) = .next t) := ⟨⟨_, rfl⟩, ⟨_, rfl⟩, ⟨_, rfl⟩, ⟨_, rfl⟩, ⟨_, rfl⟩⟩

theorem witness_CommandsWithStoresKeepOtherMemory :
    (∃ t, exec (.wrsp 1#8) (at0 (.wr 1#8 7) [rx 9]) = .next t) ∧ (∃ t, exec .convv (at0 .cmd []) = .next t) :=
  ⟨⟨_, rfl⟩, ⟨_, rfl⟩⟩

theorem witness_ConvertTemperatureIsInvisible : (at0 .cmd []).Inv ∧ (at0 .cmd []).phase = .cmd := by decide +kernel

theorem witness_ConvertVoltageIsIdempotent :
    State.reset.crc.length = State.reset.cfg.pageCount + 1 ∧
      ∃ t u, exec .convv (at0 .cmd []) = .next t ∧ exec .convv { t with phase := .cmd } = .next u :=
  ⟨rfl, _, _, rfl, rfl⟩

theorem witness_WrittenConfigurationByteSetsEveryFlag :
    (at0 (.wr 0#8 0) [rx 0xFF]).cfg.ok = true ∧ (at0 (.wr 0#8 0) [rx 0xFF]).phase = .wr 0#8 0 ∧
      (at0 (.wr 0#8 0) [rx 0xFF]).inputs = .recv (.byte 0xFF#8) :: [] := ⟨rfl, rfl, rfl⟩

theorem witness_ReadOnlyRangeBindsWriteScratchpadOnly :
    State.reset.cfg.ok = true ∧
      ((0#8 : Byte).toNat < State.reset.cfg.pageCount ∧ (at0 (.wr 0#8 6) [rx 9]).phase = .wr 0#8 6 ∧
        (at0 (.wr 0#8 6) [rx 9]).inputs = .recv (.byte 9#8) :: [] ∧ 1 ≤ (6 : Fin 8).val ∧ (6 : Fin 8).val ≤ 6) ∧
      ((1#8 : Byte).toNat < State.reset.cfg.pageCount ∧ (at0 (.wr 1#8 1) [rx 9]).phase = .wr 1#8 1 ∧
        (at0 (.wr 1#8 1) [rx 9]).inputs = .recv (.byte 9#8) :: [] ∧ 1 ≤ (1 : Fin 8).val) ∧
      ((at0 .idle [.app (.writeRange 6 [9#8])]).phase = .idle ∧
        (at0 .idle [.app (.writeRange 6 [9#8])]).inputs = .app (.writeRange 6 [9#8]) :: []) := by
  refine ⟨rfl, ⟨?_, rfl, rfl, ?_, ?_⟩, ⟨?_, rfl, rfl, ?_⟩, ⟨rfl, rfl⟩⟩ <;> decide

theorem witness_ErrorSituationsHaveTheirEffects :
    ((at0 (.rd 1#8 8) [.send .fail]).wf = true ∧
        (at0 (.rd 1#8 8) [.send .fail]).errorSituation = some .transportFailure) ∧
      ((at0 (.idx .cpsp) [rx 2]).wf = true ∧ (at0 (.idx .cpsp) [rx 2]).errorSituation = some .indexOutOfRange) ∧
      ((at0 .cmd [rx 0x45]).wf = true ∧ (at0 .cmd [rx 0x45]).errorSituation = some (.unrecognisedCommand 0x45#8)) ∧
      ((at0 (.wr 1#8 0) [.recv .fail]).wf = true ∧
        (at0 (.wr 1#8 0) [.recv .fail]).errorSituation = some .partialWrite) := by decide

theorem witness_OnlyUnrecognisedCommandsReport :
    ((∃ t, step (at0 .cmd [rx 0x45]) = .next t) ∧
        (at0 .cmd [rx 0x45]).errorSituation = some (.unrecognisedCommand 0x45#8)) ∧
      (∃ t, step (at0 .cmd [rx 0x44]) = .next t) ∧ (at0 .cmd [rx 0x44]).errorSituation = none :=
  ⟨⟨⟨_, rfl⟩, by decide⟩, ⟨_, rfl⟩, by decide⟩

theorem witness_RecomputeWritesOnlyItsChecksum :
    1 < State.reset.cfg.pageCount ∧ State.reset.crc.length = State.reset.cfg.pageCount + 1 ∧
      (at0 .cmd [rx 0x44]).wf = true ∧ ∃ t, step (at0 .cmd [rx 0x44]) = .next t :=
  ⟨by decide, rfl, by decide, _, rfl⟩

theorem witness_ResponsesPassTheHostCheck :
    (at0 (.rd 1#8 0) []).Inv ∧ State.reset.cfg.crcFn = .standard ∧ (at0 (.rd 1#8 0) []).phase = .rd 1#8 0 := by
  decide +kernel

theorem witness_OnlyChecksumsDependOnTheChecksumFunction : ∃ t, step (at0 (.wr 1#8 7) [rx 9]) = .next t := ⟨_, rfl⟩

theorem witness_ChecksumsShownAreFresh :
    ((at0 (.rd 1#8 8) [.send .fail]).Inv ∧ (at0 (.rd 1#8 8) [.send .fail]).phase = .rd 1#8 8 ∧
        (at0 (.rd 1#8 8) [.send .fail]).inputs = .send .fail :: []) ∧
      ((at0 .idle [.app (.checksumOf 1)]).Inv ∧ 1 < State.reset.cfg.pageCount ∧
        (at0 .idle [.app (.checksumOf 1)]).phase = .idle ∧
        (at0 .idle [.app (.checksumOf 1)]).inputs = .app (.checksumOf 1) :: []) := by decide +kernel

theorem witness_ResetLeavesTheStatedValues : referenceConfig.ok = true ∧ t1.ok = true := by decide

theorem witness_ResetMeetsTheInvariant : referenceConfig.ok = true ∧ t1.ok = true := by decide

theorem witness_SetTemperatureRealStoresClampedFixedPoint :
    (at0 .idle [.app (.setTemperatureReal (.rational (-1 / 2)))]).wf = true ∧
      (at0 .idle [.app (.setTemperatureReal (.rational (-1 / 2)))]).phase = .idle ∧
      (at0 .idle [.app (.setTemperatureReal (.rational (-1 / 2)))]).inputs =
        .app (.setTemperatureReal (.rational (-1 / 2))) :: [] ∧
      (-128 : Int) = (if (0 : Rat) ≤ -1 / 2 then ⌊min (-1 / 2 : Rat) 125 * 256⌋
        else ⌈max (-1 / 2 : Rat) (-55) * 256⌉) := by
  refine ⟨by decide, rfl, rfl, ?_⟩
  rw [if_neg (by norm_num), max_eq_left (by norm_num)]
  norm_num

theorem witness_SetTemperatureIntStoresWholeDegrees :
    (at0 .idle [.app (.setTemperatureInt (-56))]).wf = true ∧
      (at0 .idle [.app (.setTemperatureInt (-56))]).phase = .idle ∧
      (at0 .idle [.app (.setTemperatureInt (-56))]).inputs = .app (.setTemperatureInt (-56)) :: [] :=
  ⟨by decide, rfl, rfl⟩

theorem witness_SettersKeepTemperatureInRange :
    ((at0 .idle [.app (.setTemperatureInt 126)]).inputs = .app (.setTemperatureInt 126) :: [] ∧
        ∃ t, step (at0 .idle [.app (.setTemperatureInt 126)]) = .next t) ∧
      ((at0 .idle [.app (.setTemperatureReal (.rational (-56)))]).inputs =
          .app (.setTemperatureReal (.rational (-56))) :: [] ∧
        ∃ t, step (at0 .idle [.app (.setTemperatureReal (.rational (-56)))]) = .next t) :=
  ⟨⟨rfl, _, rfl⟩, ⟨rfl, _, rfl⟩⟩

theorem witness_VoltageSettersWriteTheirRegisterOnly :
    State.reset.cfg.ok = true ∧ (at0 .idle [.app (.setVADVoltage 65535)]).phase = .idle ∧ (0 : Int) ≤ 65535 ∧
      (65535 : Int) ≤ 65535 ∧ (at0 .idle [.app (.setVADVoltage 65535)]).inputs = .app (.setVADVoltage 65535) :: [] ∧
      (at0 .idle [.app (.setVDDVoltage 65535)]).inputs = .app (.setVDDVoltage 65535) :: [] := by
  refine ⟨rfl, rfl, ?_, ?_, rfl, rfl⟩ <;> decide

theorem witness_VoltageRoundTripsModulo1024 : (1023#16 : Half).toNat < 1024 := by decide

theorem witness_SetCurrentStoresElevenBits :
    (at0 .idle [.app (.setCurrent (-32768))]).wf = true ∧ (at0 .idle [.app (.setCurrent (-32768))]).phase = .idle ∧
      (-32768 : Int) ≤ -32768 ∧ (-32768 : Int) ≤ 32767 ∧
      (at0 .idle [.app (.setCurrent (-32768))]).inputs = .app (.setCurrent (-32768)) :: [] := by
  refine ⟨?_, rfl, ?_, ?_, rfl⟩ <;> decide

theorem witness_CurrentRoundTripLaw : (-32768 : Int) ≤ 32767 ∧ (32767 : Int) ≤ 32767 := by decide

theorem witness_GettersReadAndChangeNothing :
    State.reset.cfg.ok = true ∧ (at0 .idle []).phase = .idle ∧
      (at0 .idle [.app .getTemperature]).inputs = .app .getTemperature :: [] ∧
      (at0 .idle [.app .getVADVoltage]).inputs = .app .getVADVoltage :: [] ∧
      (at0 .idle [.app .getVDDVoltage]).inputs = .app .getVDDVoltage :: [] ∧
      (at0 .idle [.app .getCurrent]).inputs = .app .getCurrent :: [] := ⟨rfl, rfl, rfl, rfl, rfl, rfl⟩

theorem witness_ReadRangeReturnsTheBytesThatFit :
    State.reset.cfg.ok = true ∧ (at0 .idle []).phase = .idle ∧
      ((at0 .idle [.app (.readRange 16 0)]).inputs = .app (.readRange 16 0) :: [] ∧
        8 * State.reset.cfg.pageCount ≤ 16) ∧
      ((at0 .idle [.app (.readRange 15 2)]).inputs = .app (.readRange 15 2) :: [] ∧
        15 < 8 * State.reset.cfg.pageCount) := by
  refine ⟨rfl, rfl, ⟨rfl, ?_⟩, ⟨rfl, ?_⟩⟩ <;> decide

theorem witness_WriteRangeWritesTheBytesThatFit :
    (at0 .idle [.app (.writeRange 16 [])]).wf = true ∧ (at0 .idle []).phase = .idle ∧
      ((at0 .idle [.app (.writeRange 16 [])]).inputs = .app (.writeRange 16 []) :: [] ∧
        8 * State.reset.cfg.pageCount ≤ 16) ∧
      ((at0 .idle [.app (.writeRange 15 [1#8, 2#8])]).inputs = .app (.writeRange 15 [1#8, 2#8]) :: [] ∧
        15 < 8 * State.reset.cfg.pageCount) := by
  refine ⟨?_, rfl, ⟨rfl, ?_⟩, ⟨rfl, ?_⟩⟩ <;> decide

theorem witness_EveryStepKeepsTheInvariant :
    (at0 (.wr 1#8 7) [rx 9]).Inv ∧ ∃ t, step (at0 (.wr 1#8 7) [rx 9]) = .next t := ⟨by decide +kernel, _, rfl⟩

theorem witness_StepsKeepConfigurationAndHistory : ∃ t, step (at0 .cmd [rx 0xB4]) = .next t := ⟨_, rfl⟩

theorem witness_BusCannotWriteMeasurements :
    (at0 (.wr 0#8 3) [rx 9]).inputs = rx 9 :: [] ∧ (rx 9).fromBus = true ∧
      (∃ t, step (at0 (.wr 0#8 3) [rx 9]) = .next t) ∧
      ¬((at0 (.wr 0#8 3) [rx 9]).phase = .cmd ∧ rx 9 = .recv (.byte 0xB4#8)) :=
  ⟨rfl, rfl, ⟨_, rfl⟩, by rintro ⟨h, -⟩; cases h⟩

theorem witness_FlagsChangeOnlyByWritesToByteZero :
    (∃ t, step (at0 (.wr 0#8 0) [rx 0x7F]) = .next t) ∧
      (nextOf (step (at0 (.wr 0#8 0) [rx 0x7F]))).configByte ≠ (at0 (.wr 0#8 0) [rx 0x7F]).configByte ∧
      (∃ t, step (at0 .idle [.app (.writeRange 0 [0x7F#8])]) = .next t) ∧
      (nextOf (step (at0 .idle [.app (.writeRange 0 [0x7F#8])]))).configByte ≠
        (at0 .idle [.app (.writeRange 0 [0x7F#8])]).configByte :=
  ⟨⟨_, rfl⟩, by decide +kernel, ⟨_, rfl⟩, by decide +kernel⟩

theorem witness_TransactionsTouchOnePage :
    (at0 (.wr 1#8 7) [rx 9]).inputs = rx 9 :: [] ∧ (rx 9).fromBus = true ∧
      (∃ t, step (at0 (.wr 1#8 7) [rx 9]) = .next t) ∧
      ((at0 (.wr 1#8 7) [rx 9]).phase.writing ≠ some 0 ∧ ((at0 (.wr 1#8 7) [rx 9]).phase = .cmd → (0 : Nat) ≠ 0)) ∧
      (at0 (.wr 1#8 7) [rx 9]).phase.writing = some 1 :=
  ⟨rfl, rfl, ⟨_, rfl⟩, ⟨by decide, nofun⟩, rfl⟩

theorem witness_TransactionsEndWithinElevenExchanges : (at0 .cmd []).wf = true ∧ (at0 .cmd []).phase = .cmd := by decide

theorem witness_TransactionsRunAsOneEffect :
    State.reset.cfg.ok = true ∧ (at0 .idle []).phase = .idle ∧
      (Transaction.wrsp 1#8 [1#8, 2#8, 3#8, 4#8, 5#8, 6#8, 7#8, 8#8]).wellFormed = true ∧
      ∃ s : State, s.cfg.ok = true ∧ s.phase = .idle ∧
        s.inputs = .start :: (Transaction.rdsp 1#8 (some 8)).answers s.cfg.pageCount ++ [] :=
  ⟨rfl, rfl, rfl, at0 .idle (.start :: (Transaction.rdsp 1#8 (some 8)).answers 2 ++ []), rfl, rfl, rfl⟩

theorem witness_SpareSlotAndIdentityAreUnobserved : (at0 (.rd 1#8 8) [.send .ok]).wf = true := by decide

end Sys2Proof.Tests
end

section
/-! SUPPORT. One step of an admitted block, as an equation per input: the data phase of Write Scratchpad and
`writeRange`; and the read-only range of 10_state.md R33, which binds only the first. -/

namespace Sys2Proof.Machine

section

variable {s : State}

/-- The two configuration checks of a step pass together exactly when `Config.ok` holds. -/
theorem step_of_ok (hok : s.cfg.ok = true) : step s = portStep s := by
  obtain ⟨hpages, himage⟩ : s.cfg.pageCountOk = true ∧ s.cfg.imageOk = true := by
    simpa [Config.ok] using hok
  simp [step, blockStep, hpages, himage]

/-- The blocks that are admitted have page 0, so the addresses 0 to 7 exist. -/
theorem eight_le_memSize_of_ok {c : Config} (hok : c.ok = true) : 8 ≤ c.memSize := by
  obtain ⟨⟨hpos, -⟩, -⟩ : (1 ≤ c.pageCount ∧ c.pageCount ≤ 8) ∧ c.imageOk = true := by
    simpa [Config.ok, Config.pageCountOk] using hok
  unfold Config.memSize
  omega

/-- A byte received in `WR(p, k)` before the last offset: stored unless its address is read-only, and the next offset
is awaited (40_commands.md R111). -/
theorem step_wr_byte_of_lt {p b : Byte} {k : Fin 8} {rest : List Input} (hok : s.cfg.ok = true)
    (hpage : p.toNat < s.cfg.pageCount) (hphase : s.phase = .wr p k) (hin : s.inputs = .recv (.byte b) :: rest)
    (hk : k.val < 7) :
    step s = .next (((s.received (.byte b)).storeFromBus (byteAddress p k.val) b).setPhase
      (.wr p ⟨k.val + 1, by omega⟩)) := by
  have hexec : exec (.wrsp p) s = dataStep p k s := by
    simp only [exec, execWrsp, hphase, inPhase_of_eq, withPage_of_lt hpage]
  rw [step_of_ok hok]
  simp only [portStep, recvStep, hin, hphase, hexec, dataStep, hk, dif_pos]

/-- In `IDLE` an application-port operation is executed (R42). -/
theorem step_app_of_idle {op : AppOp} {rest : List Input} (hok : s.cfg.ok = true) (hphase : s.phase = .idle)
    (hin : s.inputs = .app op :: rest) : step s = execApp op s.takeInput := by
  rw [step_of_ok hok]
  simp only [portStep, appStep, hin, hphase, if_pos]

@[simp] theorem State.recomputeTouched_readByte (pos n x : Nat) :
    (s.recomputeTouched pos n).readByte x = s.readByte x := by
  unfold State.recomputeTouched
  split
  · rfl
  · exact State.recomputePages_readByte _ _ x

/-- `writeRange` from inside the scratchpad stores the bytes that fit and recomputes (41_memory_store.md R144). -/
theorem writeRange_of_lt {pos : Nat} (bytes : List Byte) (hpos : pos < s.cfg.memSize) :
    writeRange pos bytes s =
      .next (((s.writeBytes pos (bytes.take (s.fitting pos bytes.length))).recomputeTouched pos
        (s.fitting pos bytes.length)).answer (.writeRange pos bytes)
          (.written (s.fitting pos bytes.length == bytes.length))) :=
  if_neg (by omega)

theorem readOnlyToBus_page_zero {p : Byte} {k : Nat} (hp : p.toNat = 0) (hlow : 1 ≤ k) (hhigh : k ≤ 6) :
    readOnlyToBus (byteAddress p k) = true := by
  simp [readOnlyToBus, byteAddress, hp, hlow, hhigh]

/-- The range is one of absolute addresses, all below page 1 (90_conflicts.md C3). -/
theorem readOnlyToBus_other_page {p : Byte} (hp : p.toNat ≠ 0) (k : Nat) :
    readOnlyToBus (byteAddress p k) = false := by
  have habove : ¬ byteAddress p k ≤ 6 := by
    unfold byteAddress
    omega
  simp [readOnlyToBus, habove]

/-- `writeRange` of one byte at an address of the scratchpad stores it, read-only to the bus or not (R33, R144). -/
theorem writeRange_single_stores {a : Nat} (b : Byte) (ha : a < s.cfg.memSize) :
    ∃ t, writeRange a [b] s = .next t ∧ t.readByte a = b := by
  have hfits : s.fitting a 1 = 1 := by
    unfold State.fitting
    omega
  exact ⟨_, writeRange_of_lt [b] ha, by simp [hfits, State.readByte_writeBytes]⟩

end

/-- Settles O24: on page 0 the bus store of an offset 1 to 6 is the identity, on every other page it is a write, and
`writeRange` does not ask for the range. -/
theorem readOnlyRangeBindsWriteScratchpadOnly : Obligations.ReadOnlyRangeBindsWriteScratchpadOnly := by
  intro s rest hok
  refine ⟨fun p k b hpage hphase hin hlow hhigh => ?_, fun a b _ hhigh hphase hin => ?_⟩
  · refine ⟨_, step_wr_byte_of_lt hok hpage hphase hin (by omega), fun hp x => ?_, fun hp => ?_⟩
    · simp [State.readByte_storeFromBus, readOnlyToBus_page_zero hp hlow hhigh]
    · change State.readByte _ (byteAddress p k.val) = b
      simp [State.readByte_storeFromBus, readOnlyToBus_other_page hp]
  · have ha : a < s.takeInput.cfg.memSize := by
      have hsize := eight_le_memSize_of_ok hok
      rw [State.takeInput_cfg]
      omega
    rw [step_app_of_idle hok hphase hin]
    exact writeRange_single_stores b ha

end Sys2Proof.Machine
end

section
/-! SUPPORT. The decoder by what the command byte selects: an equation of `decode` per form of `Command`, and the bytes
that select each (30_encoding.md R77, R78). -/

namespace Sys2Proof.Machine

/-- A command that is complete takes nothing but its own byte (R71). -/
theorem decode_of_complete {b : Byte} {i : Instr} (h : decodeCommand b = .complete i) (rest : List Byte) :
    decode (b :: rest) = .ok (i, rest) := by
  simp only [decode, h]

/-- A paged command takes the byte after it as its page index, whatever that byte is (R75). -/
theorem decode_of_paged {b : Byte} {c : PagedCommand} (h : decodeCommand b = .paged c) (p : Byte) (rest : List Byte) :
    decode (b :: p :: rest) = .ok (c.instr p, rest) := by
  simp only [decode, h]

theorem decodeCommand_opcode (c : PagedCommand) : decodeCommand c.opcode = .paged c := by
  cases c <;> rfl

theorem decodeCommand_of_unassigned {b : Byte} (h : b ∉ assignedOpcodes) :
    decodeCommand b = .complete (.cmd b) := by
  have hwf : (Instr.cmd b).wellFormed = true := by simpa [Instr.wellFormed] using h
  obtain ⟨b', ⟨hsel, henc⟩ | ⟨c, p, -, -, hinstr, -⟩⟩ := Laws.CommandByteSelects.cmd b hwf
  · obtain rfl : b = b' := List.singleton_inj.mp henc
    exact hsel
  · cases c <;> cases hinstr

theorem assignedOpcodes_nodup : assignedOpcodes.Nodup := by decide

/-- The count runs over all 256 values of a byte. -/
theorem unassigned_count :
    ((List.range 256).filter fun n => !assignedOpcodes.contains (BitVec.ofNat 8 n)).length = 250 := by
  decide +kernel

/-- Settles O4: the command byte alone selects a complete or a paged command, and each of the two forms has one
equation of `decode`. -/
theorem everyCommandByteSelectsOneRow : Obligations.EveryCommandByteSelectsOneRow := by
  refine ⟨assignedOpcodes_nodup, unassigned_count, fun b p rest => ⟨fun hb => ?_, ?_, ?_, ?_, ?_, ?_, ?_⟩⟩
  · exact decode_of_complete (decodeCommand_of_unassigned hb) rest
  · rintro rfl
    exact decode_of_complete (i := .convt) rfl rest
  · rintro rfl
    exact decode_of_complete (i := .convv) rfl rest
  · rintro rfl
    exact decode_of_paged (decodeCommand_opcode .cpsp) p rest
  · rintro rfl
    exact decode_of_paged (decodeCommand_opcode .recallMem) p rest
  · rintro rfl
    exact decode_of_paged (decodeCommand_opcode .rdsp) p rest
  · rintro rfl
    exact decode_of_paged (decodeCommand_opcode .wrsp) p rest

end Sys2Proof.Machine
end

section
/-! SUPPORT. The steps that receive a command byte or a page index, as equations: which fetch a step is, what the fetch
executes, and what the execution answers (40_commands.md R104 to R107, R114 to R116). -/

namespace Sys2Proof.Machine

section

variable {s : State}

/-- Page 0 exists in every admitted block (00_scope.md R7). -/
theorem pageCount_pos_of_ok {c : Config} (hok : c.ok = true) : 0 < c.pageCount := by
  have hsize := eight_le_memSize_of_ok hok
  unfold Config.memSize at hsize
  omega

/-! ### The commands that are complete with their command byte -/

theorem exec_convt_of_cmd (hok : s.cfg.ok = true) (hphase : s.phase = .cmd) :
    exec .convt s = .next (s.recompute 0).endTransaction := by
  simp only [exec, execConvt, inPhase_of_eq hphase, withPage_of_lt (pageCount_pos_of_ok hok)]

theorem exec_convv_of_cmd (hok : s.cfg.ok = true) (hphase : s.phase = .cmd) :
    exec .convv s = .next ((s.writeHalf 3 s.selectedVoltage).recompute 0).endTransaction := by
  simp only [exec, execConvv, inPhase_of_eq hphase, withPage_of_lt (pageCount_pos_of_ok hok)]

theorem exec_cmd_of_cmd (c : Byte) (hphase : s.phase = .cmd) :
    exec (.cmd c) s = .next (s.reportError c).endTransaction := by
  simp only [exec, execCmd, inPhase_of_eq hphase]

/-! ### The index step of the paged commands -/

/-- The phase to which a valid page index leads (R107). -/
def phaseAfterIndex : PagedCommand → Byte → Phase
  | .rdsp, p => .rd p 0
  | .wrsp, p => .wr p 0
  | .cpsp, _ | .recallMem, _ => .idle

/-- In `IDX(c)` the four paged commands differ only in the phase that a valid page index leads to. -/
theorem exec_instr_of_idx {c : PagedCommand} (p : Byte) (hphase : s.phase = .idx c) :
    exec (c.instr p) s = selectPage p (phaseAfterIndex c p) s := by
  cases c with
  | rdsp => simp only [PagedCommand.instr, phaseAfterIndex, exec, execRdsp, hphase, inPhase_of_eq]
  | wrsp => simp only [PagedCommand.instr, phaseAfterIndex, exec, execWrsp, hphase, inPhase_of_eq]
  | cpsp => simp only [PagedCommand.instr, phaseAfterIndex, exec, execCpsp, hphase, inPhase_of_eq]
  | recallMem => simp only [PagedCommand.instr, phaseAfterIndex, exec, execRecall, hphase, inPhase_of_eq]

theorem selectPage_of_lt {p : Byte} {next : Phase} (hp : p.toNat < s.cfg.pageCount) :
    selectPage p next s = .next (s.setPhase next) := by
  simp [selectPage, State.pageValid, hp]

theorem selectPage_of_le {p : Byte} {next : Phase} (hp : s.cfg.pageCount ≤ p.toNat) :
    selectPage p next s = .next s.endTransaction := by
  simp [selectPage, State.pageValid, hp]

/-! ### The step that receives the answer -/

/-- A `Recv()` exchange takes its answer off the queue and shows it; nothing else changes. -/
theorem State.received_of_inputs {a : RecvAnswer} {rest : List Input} (hin : s.inputs = .recv a :: rest) :
    s.received a = { s with inputs := rest, trace := s.trace ++ [.recv a] } := by
  simp only [State.received, State.takeInput, State.emit, hin, List.tail_cons]

theorem step_cmd_of_recv {a : RecvAnswer} {rest : List Input} (hok : s.cfg.ok = true) (hphase : s.phase = .cmd)
    (hin : s.inputs = .recv a :: rest) : step s = fetchCommand a s := by
  rw [step_of_ok hok]
  simp only [portStep, recvStep, hin, hphase]

theorem step_idx_of_recv {c : PagedCommand} {a : RecvAnswer} {rest : List Input} (hok : s.cfg.ok = true)
    (hphase : s.phase = .idx c) (hin : s.inputs = .recv a :: rest) : step s = fetchIndex c a s := by
  rw [step_of_ok hok]
  simp only [portStep, recvStep, hin, hphase]

theorem step_cmd_of_complete {b : Byte} {i : Instr} {rest : List Input} (hok : s.cfg.ok = true)
    (hphase : s.phase = .cmd) (hin : s.inputs = .recv (.byte b) :: rest) (hb : decodeCommand b = .complete i) :
    step s = exec i { s with inputs := rest, trace := s.trace ++ [.recv (.byte b)] } := by
  rw [step_cmd_of_recv hok hphase hin, ← State.received_of_inputs hin]
  simp only [fetchCommand, hb]

theorem step_cmd_of_paged {b : Byte} {c : PagedCommand} {rest : List Input} (hok : s.cfg.ok = true)
    (hphase : s.phase = .cmd) (hin : s.inputs = .recv (.byte b) :: rest) (hb : decodeCommand b = .paged c) :
    step s = .next { s with phase := .idx c, inputs := rest, trace := s.trace ++ [.recv (.byte b)] } := by
  rw [step_cmd_of_recv hok hphase hin]
  simp only [fetchCommand, hb, State.received_of_inputs hin, State.setPhase]

theorem step_idx_of_byte {c : PagedCommand} {p : Byte} {rest : List Input} (hok : s.cfg.ok = true)
    (hphase : s.phase = .idx c) (hin : s.inputs = .recv (.byte p) :: rest) :
    step s = selectPage p (phaseAfterIndex c p)
      { s with inputs := rest, trace := s.trace ++ [.recv (.byte p)] } := by
  rw [step_idx_of_recv hok hphase hin, fetchIndex, State.received_of_inputs hin]
  exact exec_instr_of_idx p hphase

/-! ### The bytes of a register as numbers (00_scope.md R10) -/

theorem lowByte_eq_ofNat (h : Half) : lowByte h = BitVec.ofNat 8 h.toNat := by
  apply BitVec.eq_of_toNat_eq
  simp [lowByte]

theorem highByte_eq_ofNat (h : Half) : highByte h = BitVec.ofNat 8 (h.toNat / 256) := by
  apply BitVec.eq_of_toNat_eq
  simp [highByte, Nat.shiftRight_eq_div_pow]

end

/-- Settles O6: each assigned byte is decoded to its row and a byte outside the six to the unrecognised command; the
step of a paged row is `step_cmd_of_paged`, that of a complete one its execution. -/
theorem commandPhaseStepFollowsItsByte : Obligations.CommandPhaseStepFollowsItsByte := by
  intro s rest hok hphase
  refine ⟨fun hin => ?_, fun b hin => ?_⟩
  · rw [step_cmd_of_recv hok hphase hin, fetchCommand, State.received_of_inputs hin]
    rfl
  · have hsel : (if (s.readByte 0).getLsbD 3 then s.vddReg else s.vadReg) = s.selectedVoltage := rfl
    rw [hsel]
    split_ifs with hrdsp hwrsp hcpsp hrecall hconvt hconvv
    · exact step_cmd_of_paged hok hphase hin (hrdsp ▸ decodeCommand_opcode .rdsp)
    · exact step_cmd_of_paged hok hphase hin (hwrsp ▸ decodeCommand_opcode .wrsp)
    · exact step_cmd_of_paged hok hphase hin (hcpsp ▸ decodeCommand_opcode .cpsp)
    · exact step_cmd_of_paged hok hphase hin (hrecall ▸ decodeCommand_opcode .recallMem)
    · rw [step_cmd_of_complete hok hphase hin (i := .convt) (hconvt ▸ rfl)]
      exact exec_convt_of_cmd hok hphase
    · rw [step_cmd_of_complete hok hphase hin (i := .convv) (hconvv ▸ rfl)]
      exact exec_convv_of_cmd hok hphase
    · have hb : b ∉ assignedOpcodes := by
        simp [assignedOpcodes, hrdsp, hwrsp, hcpsp, hrecall, hconvt, hconvv]
      rw [step_cmd_of_complete hok hphase hin (decodeCommand_of_unassigned hb),
        List.append_cons _ _ [Event.report b]]
      exact exec_cmd_of_cmd b hphase

/-- Settles O7: with a page index the step is `selectPage` for all four commands, whose two branches are the two
clauses. -/
theorem indexPhaseStepChecksThePage : Obligations.IndexPhaseStepChecksThePage := by
  intro s c rest hok hphase
  refine ⟨fun hin => ?_, fun p hin hp => ?_, fun p hin hp => ?_⟩
  · rw [step_idx_of_recv hok hphase hin, fetchIndex, State.received_of_inputs hin]
    rfl
  · rw [step_idx_of_byte hok hphase hin]
    exact selectPage_of_le hp
  · rw [step_idx_of_byte hok hphase hin]
    cases c <;> exact selectPage_of_lt hp

/-- Settles O14: the next state is the one of `exec_convv_of_cmd`; each clause is a read after the write of two bytes or
after the recomputation of page 0. -/
theorem convertVoltageCopiesTheSelectedChannel : Obligations.ConvertVoltageCopiesTheSelectedChannel := by
  intro s hok hlen hphase
  refine ⟨_, exec_convv_of_cmd hok hphase, rfl, ?_, ?_, fun a h3 h4 => ?_, ?_, fun q hq => ?_,
    rfl, rfl, rfl, rfl, rfl⟩
  · simp [State.readByte_writeHalf, lowByte_eq_ofNat, State.selectedVoltage]
  · simp [State.readByte_writeHalf, highByte_eq_ofNat, State.selectedVoltage]
  · simp [State.readByte_writeHalf, h3, h4]
  · exact State.checksum_recompute_self (by simp [hlen])
  · simp [State.checksum_recompute_of_ne hq]

end Sys2Proof.Machine
end

section
/-! SUPPORT. Where the checksum cache is written: an operation that recomputes changes the slots of its own pages only,
so no step writes the spare slot (41_memory_store.md R141, 10_state.md R21). -/

namespace Sys2Proof.Machine

section

variable {s t : State}

@[simp] theorem State.storeFromBus_checksum (a : Nat) (b : Byte) (x : Nat) :
    (s.storeFromBus a b).checksum x = s.checksum x := by
  unfold State.storeFromBus
  split <;> rfl

/-- Bytes are written to the scratchpad alone; the checksums wait for a recomputation. -/
theorem State.writeBytes_frame (bs : List Byte) (a : Nat) :
    ∃ mem, s.writeBytes a bs = { s with mem := mem } := by
  induction bs generalizing s a with
  | nil => exact ⟨s.mem, rfl⟩
  | cons b bs ih =>
    obtain ⟨mem, h⟩ := ih (s := s.writeByte a b) (a + 1)
    exact ⟨mem, h⟩

/-- A page that begins where the touched bytes end, or later, is not recomputed (R144). -/
theorem State.checksum_recomputeTouched_of_le {pos n q : Nat} (hq : pos + n ≤ 8 * q) (hlen : q ≤ s.crc.length) :
    (s.recomputeTouched pos n).checksum q = s.checksum q := by
  unfold State.recomputeTouched
  split
  · rfl
  · have hlast : pos >>> 3 + ((pos + n - 1) >>> 3 - pos >>> 3 + 1) ≤ q := by
      simp only [Nat.shiftRight_eq_div_pow]
      omega
    rw [State.checksum_recomputePages _ _ _ (hlast.trans hlen), if_neg (by omega)]

/-- The bytes of `writeRange` that fit end at or below `MEM_SIZE`, where page `PAGE_COUNT` would begin. -/
theorem AppMove.keeps_spare_checksum {op : AppOp} (hlen : s.cfg.pageCount ≤ s.crc.length) (h : AppMove s op t) :
    t.checksum s.cfg.pageCount = s.checksum s.cfg.pageCount := by
  cases h with
  | read | vad | vdd => rfl
  | measure a bytes _ hp => exact State.checksum_recompute_of_ne hp.ne'
  | write pos bytes _ hpos =>
    obtain ⟨mem, hwrite⟩ := State.writeBytes_frame (s := s) (bytes.take (s.fitting pos bytes.length)) pos
    have hfit : pos + s.fitting pos bytes.length ≤ 8 * s.cfg.pageCount := by
      unfold Config.memSize at hpos
      unfold State.fitting Config.memSize
      omega
    rw [State.answer_checksum, hwrite]
    exact State.checksum_recomputeTouched_of_le hfit hlen

/-- Every recomputation in a transaction is of a page of the block. -/
theorem Move.keeps_spare_checksum (hlen : s.cfg.pageCount ≤ s.crc.length) (h : Move s t) :
    t.checksum s.cfg.pageCount = s.checksum s.cfg.pageCount := by
  cases h with
  | app op _ _ _ _ happ => exact AppMove.keeps_spare_checksum (s := s.takeInput) hlen happ
  | convt _ _ _ _ _ hz | convv _ _ _ _ _ hz => exact State.checksum_recompute_of_ne hz.ne'
  | store => exact State.storeFromBus_checksum _ _ _
  | storeLast _ _ _ _ _ _ hv =>
    exact (State.checksum_recompute_of_ne hv.ne').trans (State.storeFromBus_checksum _ _ _)
  | dataFail _ _ _ _ _ hv => exact State.checksum_recompute_of_ne hv.ne'
  | _ => rfl

/-- A well-formed state has a slot for every page and the spare one (R21). -/
theorem State.crc_length_of_wf (hwf : s.wf = true) : s.crc.length = s.cfg.pageCount + 1 := by
  simp only [State.wf, Bool.and_eq_true, beq_iff_eq] at hwf
  obtain ⟨⟨⟨-, hlen⟩, -⟩, -⟩ := hwf
  exact hlen

end

/-- Settles O27: the first clauses are the laws of `recompute`; the last goes through the rows of the transition table,
each of which recomputes pages below `PAGE_COUNT` or none. -/
theorem recomputeWritesOnlyItsChecksum : Obligations.RecomputeWritesOnlyItsChecksum := by
  refine ⟨fun s p hp hlen => ⟨?_, fun q hq => State.checksum_recompute_of_ne hq, rfl⟩, fun s t hwf hstep => ?_⟩
  · exact State.checksum_recompute_self (by omega)
  · have hslots : s.cfg.pageCount ≤ s.crc.length := by
      have hlen := State.crc_length_of_wf hwf
      omega
    exact Move.keeps_spare_checksum hslots (step_cases hstep).2

end Sys2Proof.Machine
end

section
/-! SUPPORT. The error situations by the exchange that fails, and the steps of the two data phases as equations
(60_exceptions.md R201, 40_commands.md R110, R111). -/

namespace Sys2Proof.Machine

section

variable {s : State}

/-! ### The parts of a well-formed state -/

theorem State.cfg_ok_of_wf (hwf : s.wf = true) : s.cfg.ok = true := by
  simp only [State.wf, Bool.and_eq_true] at hwf
  obtain ⟨⟨⟨hok, -⟩, -⟩, -⟩ := hwf
  exact hok

theorem State.pageOk_of_wf (hwf : s.wf = true) : s.phase.pageOk s.cfg.pageCount = true := by
  simp only [State.wf, Bool.and_eq_true] at hwf
  obtain ⟨-, hpage⟩ := hwf
  exact hpage

theorem State.page_lt_of_wf_rd {p : Byte} {k : Fin 9} (hwf : s.wf = true) (hphase : s.phase = .rd p k) :
    p.toNat < s.cfg.pageCount := by
  simpa [hphase, Phase.pageOk] using State.pageOk_of_wf hwf

theorem State.page_lt_of_wf_wr {p : Byte} {k : Fin 8} (hwf : s.wf = true) (hphase : s.phase = .wr p k) :
    p.toNat < s.cfg.pageCount := by
  simpa [hphase, Phase.pageOk] using State.pageOk_of_wf hwf

/-! ### The steps of the data phases -/

theorem step_rd_of_send {p : Byte} {k : Fin 9} {a : SendAnswer} {rest : List Input} (hwf : s.wf = true)
    (hphase : s.phase = .rd p k) (hin : s.inputs = .send a :: rest) : step s = sendStep p k s := by
  rw [step_of_ok (State.cfg_ok_of_wf hwf)]
  simp only [portStep, sendAnswerStep, hin, hphase, exec, execRdsp, inPhase_of_eq,
    withPage_of_lt (State.page_lt_of_wf_rd hwf hphase)]

theorem step_wr_of_recv {p : Byte} {k : Fin 8} {a : RecvAnswer} {rest : List Input} (hwf : s.wf = true)
    (hphase : s.phase = .wr p k) (hin : s.inputs = .recv a :: rest) : step s = dataStep p k s := by
  rw [step_of_ok (State.cfg_ok_of_wf hwf)]
  simp only [portStep, recvStep, hin, hphase, exec, execWrsp, inPhase_of_eq,
    withPage_of_lt (State.page_lt_of_wf_wr hwf hphase)]

/-! ### The steps in an error situation -/

theorem step_of_fetchFail {rest : List Input} (hok : s.cfg.ok = true) (hin : s.inputs = .recv .fail :: rest)
    (hphase : s.phase = .cmd ∨ ∃ c, s.phase = .idx c) : step s = .next (s.received .fail).endTransaction := by
  rcases hphase with hcmd | ⟨c, hidx⟩
  · rw [step_cmd_of_recv hok hcmd hin, fetchCommand]
  · rw [step_idx_of_recv hok hidx hin, fetchIndex]

theorem step_rd_of_fail {p : Byte} {k : Fin 9} {rest : List Input} (hwf : s.wf = true)
    (hphase : s.phase = .rd p k) (hin : s.inputs = .send .fail :: rest) :
    step s = .next (s.sent (s.responseByte p k) .fail).endTransaction := by
  rw [step_rd_of_send hwf hphase hin]
  simp only [sendStep, hin]

theorem step_wr_of_fail {p : Byte} {k : Fin 8} {rest : List Input} (hwf : s.wf = true)
    (hphase : s.phase = .wr p k) (hin : s.inputs = .recv .fail :: rest) :
    step s = .next ((s.received .fail).recompute p.toNat).endTransaction := by
  rw [step_wr_of_recv hwf hphase hin]
  simp only [dataStep, hin]

theorem step_cmd_of_unassigned {c : Byte} {rest : List Input} (hok : s.cfg.ok = true) (hphase : s.phase = .cmd)
    (hin : s.inputs = .recv (.byte c) :: rest) (hc : c ∉ assignedOpcodes) :
    step s = .next ((s.received (.byte c)).reportError c).endTransaction := by
  rw [step_cmd_of_recv hok hphase hin]
  simp only [fetchCommand, decodeCommand_of_unassigned hc]
  exact exec_cmd_of_cmd c hphase

/-! ### Which exchange an error situation is -/

/-- The phase and the pending input of each error situation, a row for each place where it can occur (R201). -/
inductive ErrorAt (s : State) : ErrorSituation → Prop
  | fetchFail (rest : List Input) (hin : s.inputs = .recv .fail :: rest)
      (hphase : s.phase = .cmd ∨ ∃ c, s.phase = .idx c) : ErrorAt s .transportFailure
  | sendFail (p : Byte) (k : Fin 9) (rest : List Input) (hin : s.inputs = .send .fail :: rest)
      (hphase : s.phase = .rd p k) : ErrorAt s .transportFailure
  | badIndex (c : PagedCommand) (p : Byte) (rest : List Input) (hin : s.inputs = .recv (.byte p) :: rest)
      (hphase : s.phase = .idx c) (hp : s.cfg.pageCount ≤ p.toNat) : ErrorAt s .indexOutOfRange
  | unassigned (c : Byte) (rest : List Input) (hin : s.inputs = .recv (.byte c) :: rest) (hphase : s.phase = .cmd)
      (hc : c ∉ assignedOpcodes) : ErrorAt s (.unrecognisedCommand c)
  | dataFail (p : Byte) (k : Fin 8) (rest : List Input) (hin : s.inputs = .recv .fail :: rest)
      (hphase : s.phase = .wr p k) : ErrorAt s .partialWrite

/-- The cases are those of the definition, in its order. -/
theorem State.errorSituation_cases {e : ErrorSituation} (h : s.errorSituation = some e) : ErrorAt s e := by
  unfold State.errorSituation at h
  split at h
  · next rest hphase hin =>
    cases h
    exact .fetchFail rest hin (.inl hphase)
  · next c rest hphase hin =>
    cases h
    exact .fetchFail rest hin (.inr ⟨c, hphase⟩)
  · next p k rest hphase hin =>
    cases h
    exact .sendFail p k rest hin hphase
  · next p k rest hphase hin =>
    cases h
    exact .dataFail p k rest hin hphase
  · next c p rest hphase hin =>
    split at h
    · cases h
    · next hvalid =>
      cases h
      exact .badIndex c p rest hin hphase (by simpa [State.pageValid] using hvalid)
  · next c rest hphase hin =>
    split at h
    · cases h
    · next hassigned =>
      cases h
      exact .unassigned c rest hin hphase (by simpa using hassigned)
  · cases h

end

/-- Settles O25: each row of `ErrorAt` has one equation of `step`, and the next state it names is the one stated. -/
theorem errorSituationsHaveTheirEffects : Obligations.ErrorSituationsHaveTheirEffects := by
  intro s hwf
  have hok : s.cfg.ok = true := State.cfg_ok_of_wf hwf
  refine ⟨fun h => ?_, fun h => ?_, fun c h => ?_, fun h => ?_⟩
  · cases State.errorSituation_cases h with
    | fetchFail rest hin hphase => exact ⟨.recv .fail, step_of_fetchFail hok hin hphase, nofun⟩
    | sendFail p k rest hin hphase =>
      exact ⟨.send (s.responseByte p k) .fail, step_rd_of_fail hwf hphase hin, nofun⟩
  · cases State.errorSituation_cases h with
    | badIndex c p rest hin hphase hp =>
      refine ⟨p, hp, ?_⟩
      rw [step_idx_of_byte hok hphase hin, hin]
      exact selectPage_of_le hp
  · cases State.errorSituation_cases h with
    | unassigned _ rest hin hphase hc =>
      rw [step_cmd_of_unassigned hok hphase hin hc, List.append_cons _ _ [Event.report c]]
      rfl
  · cases State.errorSituation_cases h with
    | dataFail p k rest hin hphase => exact ⟨p, k, hphase, step_wr_of_fail hwf hphase hin⟩

end Sys2Proof.Machine
end

section
/-! SUPPORT. Decoding and encoding are inverse to each other (30_encoding.md sections 2 to 4). -/

namespace Sys2Proof.Machine

/-! ### From an instruction to its bytes -/

/-- The command byte of every well-formed instruction selects it, constructor by constructor. -/
theorem command_byte_selects (i : Instr) : Laws.CommandByteSelects.Statement i := by
  cases i with
  | convt => exact Laws.CommandByteSelects.convt
  | cpsp p => exact Laws.CommandByteSelects.cpsp p
  | wrsp p => exact Laws.CommandByteSelects.wrsp p
  | convv => exact Laws.CommandByteSelects.convv
  | recallMem p => exact Laws.CommandByteSelects.recallMem p
  | rdsp p => exact Laws.CommandByteSelects.rdsp p
  | cmd c => exact Laws.CommandByteSelects.cmd c

/-- Settles O2: an encoding is a command byte that is complete, or a paged one and its page index; each form has one
equation of `decode`. -/
theorem encodedInstructionDecodesToItself : Obligations.EncodedInstructionDecodesToItself := by
  intro i rest hwf
  obtain ⟨b, ⟨hsel, henc⟩ | ⟨c, p, hsel, -, rfl, henc⟩⟩ := command_byte_selects i hwf
  · rw [henc]
    exact decode_of_complete hsel rest
  · rw [henc]
    exact decode_of_paged hsel p rest

/-! ### From the bytes to the instruction -/

theorem decodeCommand_paged {b : Byte} {c : PagedCommand} (h : decodeCommand b = .paged c) : b = c.opcode := by
  unfold decodeCommand at h
  split_ifs at h <;> cases h <;> assumption

theorem encode_instr (c : PagedCommand) (p : Byte) : encode (c.instr p) = [c.opcode, p] := by
  cases c <;> rfl

theorem instr_wellFormed (c : PagedCommand) (p : Byte) : (c.instr p).wellFormed = true := by
  cases c <;> rfl

theorem decodeCommand_convt {b : Byte} (h : decodeCommand b = .complete .convt) : b = 0x44#8 := by
  unfold decodeCommand at h
  split_ifs at h <;> cases h
  assumption

theorem decodeCommand_convv {b : Byte} (h : decodeCommand b = .complete .convv) : b = 0xB4#8 := by
  unfold decodeCommand at h
  split_ifs at h <;> cases h
  assumption

/-- The unrecognised command is selected by no assigned byte: each of the six selects its own row (R77). -/
theorem unassigned_of_decodeCommand {b : Byte} (h : decodeCommand b = .complete (.cmd b)) : b ∉ assignedOpcodes := by
  unfold decodeCommand at h
  split_ifs at h with h44 hB4 h48 h4E hB8 hBE <;> cases h
  simp [assignedOpcodes, h44, h48, h4E, hB4, hB8, hBE]

theorem encode_of_complete {b : Byte} {i : Instr} (h : decodeCommand b = .complete i) :
    i.wellFormed = true ∧ encode i = [b] := by
  rcases decodeCommand_complete h with rfl | rfl | rfl
  · exact ⟨rfl, by rw [decodeCommand_convt h]; rfl⟩
  · exact ⟨rfl, by rw [decodeCommand_convv h]; rfl⟩
  · exact ⟨by simpa [Instr.wellFormed] using unassigned_of_decodeCommand h, rfl⟩

/-- Settles O3: the branches of `decode` are the two forms of `Command`, each of which determines the bytes. -/
theorem decodedInstructionEncodesToItsBytes : Obligations.DecodedInstructionEncodesToItsBytes := by
  intro bytes rest i h
  unfold decode at h
  split at h
  · cases h
  · next b tail =>
    split at h
    · next j hsel =>
      cases h
      obtain ⟨hwf, henc⟩ := encode_of_complete hsel
      exact ⟨hwf, by rw [henc]; rfl⟩
    · next c hsel =>
      split at h
      · cases h
      · next p tail' =>
        cases h
        refine ⟨instr_wellFormed c p, ?_⟩
        rw [encode_instr, decodeCommand_paged hsel]
        rfl

/-- Settles O1: the words are the rows of the table of 30_encoding.md section 4, evaluated. -/
theorem wordsOfEveryCommandDecode : Obligations.WordsOfEveryCommandDecode :=
  ⟨rfl, rfl, rfl, rfl, rfl, rfl, rfl, rfl, rfl, rfl⟩

end Sys2Proof.Machine
end

section
/-! SUPPORT. The step as an equation of the act pending: the ports in `IDLE` and out of it, the answers nobody asked
for, and the exchanges of the data phases (40_commands.md R100 to R117, 60_exceptions.md R206 to R208). -/

namespace Sys2Proof.Machine

section

variable {s : State}

/-! ### What the ports do to the state -/

/-- The state with another phase, other acts pending and other things shown: all that a step changes outside the
scratchpad, the checksums and the channel registers. -/
def State.withPorts (s : State) (ph : Phase) (ins : List Input) (tr : List Event) : State :=
  { s with phase := ph, inputs := ins, trace := tr }

@[simp] theorem State.withPorts_cfg (ph : Phase) (ins : List Input) (tr : List Event) :
    (s.withPorts ph ins tr).cfg = s.cfg := rfl
@[simp] theorem State.withPorts_mem (ph : Phase) (ins : List Input) (tr : List Event) :
    (s.withPorts ph ins tr).mem = s.mem := rfl
@[simp] theorem State.withPorts_crc (ph : Phase) (ins : List Input) (tr : List Event) :
    (s.withPorts ph ins tr).crc = s.crc := rfl
@[simp] theorem State.withPorts_vadReg (ph : Phase) (ins : List Input) (tr : List Event) :
    (s.withPorts ph ins tr).vadReg = s.vadReg := rfl
@[simp] theorem State.withPorts_vddReg (ph : Phase) (ins : List Input) (tr : List Event) :
    (s.withPorts ph ins tr).vddReg = s.vddReg := rfl
@[simp] theorem State.withPorts_phase (ph : Phase) (ins : List Input) (tr : List Event) :
    (s.withPorts ph ins tr).phase = ph := rfl
@[simp] theorem State.withPorts_inputs (ph : Phase) (ins : List Input) (tr : List Event) :
    (s.withPorts ph ins tr).inputs = ins := rfl
@[simp] theorem State.withPorts_trace (ph : Phase) (ins : List Input) (tr : List Event) :
    (s.withPorts ph ins tr).trace = tr := rfl
@[simp] theorem State.withPorts_readByte (ph : Phase) (ins : List Input) (tr : List Event) (a : Nat) :
    (s.withPorts ph ins tr).readByte a = s.readByte a := rfl
@[simp] theorem State.withPorts_pageBytes (ph : Phase) (ins : List Input) (tr : List Event) (p : Nat) :
    (s.withPorts ph ins tr).pageBytes p = s.pageBytes p := rfl
@[simp] theorem State.withPorts_checksum (ph : Phase) (ins : List Input) (tr : List Event) (p : Nat) :
    (s.withPorts ph ins tr).checksum p = s.checksum p := rfl

/-- The outside's next act leaves the queue; nothing else changes. -/
theorem State.takeInput_of_inputs {inp : Input} {rest : List Input} (hin : s.inputs = inp :: rest) :
    s.takeInput = { s with inputs := rest } := by
  simp only [State.takeInput, hin, List.tail_cons]

/-- A `Send(b)` exchange takes its answer off the queue and shows it; nothing else changes. -/
theorem State.sent_of_inputs {b : Byte} {a : SendAnswer} {rest : List Input} (hin : s.inputs = .send a :: rest) :
    s.sent b a = { s with inputs := rest, trace := s.trace ++ [.send b a] } := by
  simp only [State.sent, State.takeInput, State.emit, hin, List.tail_cons]

/-- Write Scratchpad's store changes the scratchpad alone. -/
theorem State.storeFromBus_frame (s : State) (a : Nat) (b : Byte) :
    ∃ mem, s.storeFromBus a b = { s with mem := mem } := by
  unfold State.storeFromBus
  split
  · exact ⟨s.mem, rfl⟩
  · exact ⟨_, rfl⟩

@[simp] theorem State.storeFromBus_cfg (a : Nat) (b : Byte) : (s.storeFromBus a b).cfg = s.cfg := by
  obtain ⟨mem, h⟩ := s.storeFromBus_frame a b
  rw [h]

@[simp] theorem State.storeFromBus_crc (a : Nat) (b : Byte) : (s.storeFromBus a b).crc = s.crc := by
  obtain ⟨mem, h⟩ := s.storeFromBus_frame a b
  rw [h]

@[simp] theorem State.storeFromBus_vadReg (a : Nat) (b : Byte) : (s.storeFromBus a b).vadReg = s.vadReg := by
  obtain ⟨mem, h⟩ := s.storeFromBus_frame a b
  rw [h]

@[simp] theorem State.storeFromBus_vddReg (a : Nat) (b : Byte) : (s.storeFromBus a b).vddReg = s.vddReg := by
  obtain ⟨mem, h⟩ := s.storeFromBus_frame a b
  rw [h]

@[simp] theorem State.storeFromBus_inputs (a : Nat) (b : Byte) : (s.storeFromBus a b).inputs = s.inputs := by
  obtain ⟨mem, h⟩ := s.storeFromBus_frame a b
  rw [h]

@[simp] theorem State.storeFromBus_trace (a : Nat) (b : Byte) : (s.storeFromBus a b).trace = s.trace := by
  obtain ⟨mem, h⟩ := s.storeFromBus_frame a b
  rw [h]

/-- A store goes by the address and the scratchpad, not by what the ports hold. -/
theorem State.storeFromBus_withPorts (ph : Phase) (ins : List Input) (tr : List Event) (a : Nat) (b : Byte) :
    (s.withPorts ph ins tr).storeFromBus a b = (s.storeFromBus a b).withPorts ph ins tr := by
  unfold State.storeFromBus
  split <;> rfl

theorem readOnlyToBus_eq_false_iff {a : Nat} : readOnlyToBus a = false ↔ ¬(1 ≤ a ∧ a ≤ 6) := by
  simp [readOnlyToBus]

/-! ### The steps of the ports -/

theorem step_of_start {rest : List Input} (hok : s.cfg.ok = true) (hin : s.inputs = .start :: rest) :
    step s = startStep s := by
  rw [step_of_ok hok]
  simp only [portStep, hin]

theorem step_of_app {op : AppOp} {rest : List Input} (hok : s.cfg.ok = true) (hin : s.inputs = .app op :: rest) :
    step s = appStep op s := by
  rw [step_of_ok hok]
  simp only [portStep, hin]

theorem step_of_no_inputs (hok : s.cfg.ok = true) (hin : s.inputs = []) : step s = .next s := by
  rw [step_of_ok hok]
  simp only [portStep, hin]

theorem step_start_of_idle {rest : List Input} (hok : s.cfg.ok = true) (hphase : s.phase = .idle)
    (hin : s.inputs = .start :: rest) : step s = .next (s.takeInput.setPhase .cmd) := by
  rw [step_of_start hok hin]
  exact if_pos hphase

theorem step_start_of_busy {rest : List Input} (hok : s.cfg.ok = true) (hphase : s.phase ≠ .idle)
    (hin : s.inputs = .start :: rest) : step s = .refused .startWhileBusy := by
  rw [step_of_start hok hin]
  exact if_neg hphase

theorem step_app_of_busy {op : AppOp} {rest : List Input} (hok : s.cfg.ok = true) (hphase : s.phase ≠ .idle)
    (hin : s.inputs = .app op :: rest) : step s = .refused .applicationWhileBusy := by
  rw [step_of_app hok hin]
  exact if_neg hphase

theorem step_rd_eq_exec {p : Byte} {k : Fin 9} {a : SendAnswer} {rest : List Input} (hok : s.cfg.ok = true)
    (hphase : s.phase = .rd p k) (hin : s.inputs = .send a :: rest) : step s = exec (.rdsp p) s := by
  rw [step_of_ok hok]
  simp only [portStep, sendAnswerStep, hin, hphase]

theorem step_wr_eq_exec {p : Byte} {k : Fin 8} {a : RecvAnswer} {rest : List Input} (hok : s.cfg.ok = true)
    (hphase : s.phase = .wr p k) (hin : s.inputs = .recv a :: rest) : step s = exec (.wrsp p) s := by
  rw [step_of_ok hok]
  simp only [portStep, recvStep, hin, hphase]

/-- An answer to an exchange the phase does not ask for is dropped (notes/assumptions/11.md). -/
theorem step_of_unasked {inp : Input} {rest : List Input} (hok : s.cfg.ok = true) (hin : s.inputs = inp :: rest)
    (hbus : inp.fromBus = true) (hstart : inp ≠ .start) (hasks : s.phase.asksFor inp = false) :
    step s = .next s.takeInput := by
  rw [step_of_ok hok]
  cases inp with
  | start => exact absurd rfl hstart
  | app op => cases hbus
  | recv a =>
    cases hphase : s.phase with
    | idle | rd p k => simp only [portStep, recvStep, hin, hphase]
    | cmd | idx c | wr p k => simp [Phase.asksFor, hphase] at hasks
  | send a =>
    cases hphase : s.phase with
    | idle | cmd | idx c | wr p k => simp only [portStep, sendAnswerStep, hin, hphase]
    | rd p k => simp [Phase.asksFor, hphase] at hasks

theorem decode_singleton {b : Byte} {i : Instr} (h : decode [b] = .ok (i, [])) : decodeCommand b = .complete i := by
  cases hsel : decodeCommand b with
  | complete j =>
    rw [decode_of_complete hsel] at h
    cases h
    rfl
  | paged c =>
    simp only [decode, hsel] at h
    cases h

theorem decode_opcode_pair {c : PagedCommand} {p : Byte} {i : Instr} (h : decode [c.opcode, p] = .ok (i, [])) :
    i = c.instr p := by
  rw [decode_of_paged (decodeCommand_opcode c)] at h
  cases h
  rfl

end

/-- Settles O5: the four clauses are the steps of the four phases that receive or send. -/
theorem stepRunsTheDecodedInstruction : Obligations.StepRunsTheDecodedInstruction := by
  intro s rest hok
  refine ⟨fun b i hphase hin hdec => ?_, fun c p i hphase hin hdec => ?_, fun p k a hphase hin => ?_,
    fun p k a hphase hin => ?_⟩
  · exact step_cmd_of_complete hok hphase hin (decode_singleton hdec)
  · rw [step_idx_of_recv hok hphase hin, decode_opcode_pair hdec, ← State.received_of_inputs hin]
    rfl
  · exact step_rd_eq_exec hok hphase hin
  · exact step_wr_eq_exec hok hphase hin

/-- Settles O8: both ports test the phase, and served they find their act taken off the queue. -/
theorem portsAreServedOnlyWhenIdle : Obligations.PortsAreServedOnlyWhenIdle := by
  intro s rest hok
  refine ⟨fun hin => ?_, fun op hin => ?_⟩
  · rw [step_of_start hok hin, startStep, State.takeInput_of_inputs hin]
    rfl
  · rw [step_of_app hok hin, appStep, State.takeInput_of_inputs hin]

/-- Settles O11: an empty queue is one equation of the step, an answer the phase did not ask for another. -/
theorem unaskedAnswersChangeNothing : Obligations.UnaskedAnswersChangeNothing := by
  intro s hok
  refine ⟨step_of_no_inputs hok, fun inp rest hin hbus hstart hasks => ?_⟩
  rw [step_of_unasked hok hin hbus hstart hasks, State.takeInput_of_inputs hin]

section

variable {s : State}

/-! ### Where `exec` stops -/

theorem inPhase_of_ne {ph : Phase} {k : State → Result} (h : s.phase ≠ ph) : inPhase ph s k = .refused .outOfPhase :=
  if_neg h

theorem withPage_of_le {p : Nat} {k : State → Result} (h : s.cfg.pageCount ≤ p) :
    withPage p s k = .fault (.noSuchPage p) :=
  if_neg (Nat.not_lt.mpr h)

/-- Read Scratchpad has rows in its index phase and in the send phases of its own page. -/
theorem exec_rdsp_of_ne {p : Byte} (hidx : s.phase ≠ .idx .rdsp) (hrd : ∀ k, s.phase ≠ .rd p k) :
    exec (.rdsp p) s = .refused .outOfPhase := by
  simp only [exec, execRdsp]
  split
  · exact inPhase_of_ne (hrd _)
  · exact inPhase_of_ne hidx

/-- Write Scratchpad has rows in its index phase and in the data phases of its own page. -/
theorem exec_wrsp_of_ne {p : Byte} (hidx : s.phase ≠ .idx .wrsp) (hwr : ∀ k, s.phase ≠ .wr p k) :
    exec (.wrsp p) s = .refused .outOfPhase := by
  simp only [exec, execWrsp]
  split
  · exact inPhase_of_ne (hwr _)
  · exact inPhase_of_ne hidx

theorem exec_rdsp_of_rd {p : Byte} {k : Fin 9} (hphase : s.phase = .rd p k) :
    exec (.rdsp p) s = withPage p.toNat s (sendStep p k) := by
  simp only [exec, execRdsp, hphase, inPhase_of_eq]

theorem exec_wrsp_of_wr {p : Byte} {k : Fin 8} (hphase : s.phase = .wr p k) :
    exec (.wrsp p) s = withPage p.toNat s (dataStep p k) := by
  simp only [exec, execWrsp, hphase, inPhase_of_eq]

end

/-- Settles O12: out of phase `inPhase` refuses, and in a data phase `withPage` faults on a page that is missing. -/
theorem commandsOutsideTheirPhaseStop : Obligations.CommandsOutsideTheirPhaseStop := by
  intro s p c
  refine ⟨fun h => ⟨?_, ?_, ?_⟩, inPhase_of_ne, inPhase_of_ne,
    exec_rdsp_of_ne, exec_wrsp_of_ne, fun hp => ⟨fun k hphase => ?_, fun k hphase => ?_⟩⟩
  · simp only [exec, execConvt, inPhase_of_ne h]
  · simp only [exec, execConvv, inPhase_of_ne h]
  · simp only [exec, execCmd, inPhase_of_ne h]
  · rw [exec_rdsp_of_rd hphase, withPage_of_le hp]
  · rw [exec_wrsp_of_wr hphase, withPage_of_le hp]

end Sys2Proof.Machine
end

section
/-! SUPPORT. What each command does, as equations of `exec` in its phases, and the frame of each (40_commands.md R110 to
R116). -/

namespace Sys2Proof.Machine

section

variable {s : State}

/-! ### Error reports -/

@[simp] theorem reportCount_append (es fs : List Event) : reportCount (es ++ fs) = reportCount es + reportCount fs :=
  List.countP_append

@[simp] theorem reportCount_recv (a : RecvAnswer) : reportCount [.recv a] = 0 := rfl
@[simp] theorem reportCount_send (b : Byte) (a : SendAnswer) : reportCount [.send b a] = 0 := rfl
@[simp] theorem reportCount_app (op : AppOp) (r : AppResult) : reportCount [.app op r] = 0 := rfl
@[simp] theorem reportCount_report (c : Byte) : reportCount [.report c] = 1 := rfl

/-! ### Page indices -/

/-- Where a valid page index ends the transaction, so does an invalid one. -/
theorem selectPage_idle (p : Byte) : selectPage p .idle s = .next s.endTransaction := by
  rcases selectPage_cases p .idle s with ⟨-, h⟩ | ⟨-, h⟩ <;> exact h

theorem selectPage_eq (p : Byte) (ph : Phase) :
    selectPage p ph s = .next { s with phase := if p.toNat < s.cfg.pageCount then ph else .idle } := by
  rcases selectPage_cases p ph s with ⟨hp, h⟩ | ⟨hp, h⟩
  · rw [h, if_pos hp]
    rfl
  · rw [h, if_neg hp]
    rfl

/-! ### The exchanges of Read Scratchpad -/

theorem State.responseByte_of_lt {p : Byte} {k : Fin 9} (hk : k.val < 8) :
    s.responseByte p k = s.readByte (8 * p.toNat + k.val) :=
  if_pos hk

theorem nextSendPhase_of_lt {p : Byte} {k j : Fin 9} (hk : k.val < 8) (hj : j.val = k.val + 1) :
    nextSendPhase p k = .rd p j := by
  have hnext : (⟨k.val + 1, by omega⟩ : Fin 9) = j := Fin.ext hj.symm
  rw [nextSendPhase, dif_pos hk, hnext]

theorem exec_rdsp_ok {p : Byte} {k : Fin 9} {rest : List Input} (hp : p.toNat < s.cfg.pageCount)
    (hphase : s.phase = .rd p k) (hin : s.inputs = .send .ok :: rest) :
    exec (.rdsp p) s =
      .next (s.withPorts (nextSendPhase p k) rest (s.trace ++ [.send (s.responseByte p k) .ok])) := by
  rw [exec_rdsp_of_rd hphase, withPage_of_lt hp]
  simp only [sendStep, hin, State.sent_of_inputs hin]
  rfl

theorem exec_rdsp_fail {p : Byte} {k : Fin 9} {rest : List Input} (hp : p.toNat < s.cfg.pageCount)
    (hphase : s.phase = .rd p k) (hin : s.inputs = .send .fail :: rest) :
    exec (.rdsp p) s = .next (s.withPorts .idle rest (s.trace ++ [.send (s.responseByte p k) .fail])) := by
  rw [exec_rdsp_of_rd hphase, withPage_of_lt hp]
  simp only [sendStep, hin, State.sent_of_inputs hin]
  rfl

/-! ### The exchanges of Write Scratchpad -/

theorem State.received_eq_withPorts {a : RecvAnswer} {rest : List Input} (hin : s.inputs = .recv a :: rest) :
    s.received a = s.withPorts s.phase rest (s.trace ++ [.recv a]) :=
  State.received_of_inputs hin

/-- Before the last offset a byte is stored and the next offset awaited. -/
theorem exec_wrsp_byte_of_lt {p b : Byte} {k j : Fin 8} {rest : List Input} (hp : p.toNat < s.cfg.pageCount)
    (hphase : s.phase = .wr p k) (hin : s.inputs = .recv (.byte b) :: rest) (hj : j.val = k.val + 1) :
    exec (.wrsp p) s = .next ((s.storeFromBus (byteAddress p k.val) b).withPorts (.wr p j) rest
      (s.trace ++ [.recv (.byte b)])) := by
  have hk : k.val < 7 := by omega
  have hnext : (⟨k.val + 1, by omega⟩ : Fin 8) = j := Fin.ext hj.symm
  rw [exec_wrsp_of_wr hphase, withPage_of_lt hp]
  simp only [dataStep, hin, hk, dif_pos, State.received_eq_withPorts hin, State.storeFromBus_withPorts, hnext]
  rfl

/-- After the last offset the checksum is recomputed and the transaction ends. -/
theorem exec_wrsp_byte_last {p b : Byte} {k : Fin 8} {rest : List Input} (hp : p.toNat < s.cfg.pageCount)
    (hphase : s.phase = .wr p k) (hin : s.inputs = .recv (.byte b) :: rest) (hk : k.val = 7) :
    exec (.wrsp p) s = .next (((s.storeFromBus (byteAddress p k.val) b).recompute p.toNat).withPorts .idle rest
      (s.trace ++ [.recv (.byte b)])) := by
  have hlast : ¬k.val < 7 := by omega
  rw [exec_wrsp_of_wr hphase, withPage_of_lt hp]
  simp only [dataStep, hin, hlast, dif_neg, not_false_eq_true, State.received_eq_withPorts hin,
    State.storeFromBus_withPorts]
  rfl

/-- After a failed receive too: a partial write keeps the bytes stored so far (R111). -/
theorem exec_wrsp_fail {p : Byte} {k : Fin 8} {rest : List Input} (hp : p.toNat < s.cfg.pageCount)
    (hphase : s.phase = .wr p k) (hin : s.inputs = .recv .fail :: rest) :
    exec (.wrsp p) s = .next ((s.recompute p.toNat).withPorts .idle rest (s.trace ++ [.recv .fail])) := by
  rw [exec_wrsp_of_wr hphase, withPage_of_lt hp]
  simp only [dataStep, hin, State.received_eq_withPorts hin]
  rfl

/-- What a read gives after Write Scratchpad's store at offset `k` of page `p`. -/
theorem State.readByte_stored {p : Byte} {k : Nat} (b : Byte) (a : Nat) :
    (s.storeFromBus (byteAddress p k) b).readByte a =
      if a = 8 * p.toNat + k ∧ ¬(1 ≤ a ∧ a ≤ 6) then b else s.readByte a := by
  simp only [State.readByte_storeFromBus, readOnlyToBus_eq_false_iff, byteAddress]
  by_cases ha : a = 8 * p.toNat + k
  · rw [← ha]
  · simp [ha]

/-! ### Recomputation of a fresh checksum -/

theorem State.recompute_of_fresh {p : Nat} (hp : p < s.crc.length) (h : s.fresh p) : s.recompute p = s := by
  have hslot : crc8Fn s.cfg (s.pageBytes p) = s.crc[p] := by
    rw [← h]
    simp [State.checksum, hp]
  simp only [State.recompute, hslot, List.set_getElem_self]

end

/-- Settles O13: the next state is the one of `exec_convt_of_cmd`, a recomputation of page 0. -/
theorem convertTemperatureRecomputesPageZero : Obligations.ConvertTemperatureRecomputesPageZero := by
  intro s hok hlen hphase
  refine ⟨_, exec_convt_of_cmd hok hphase, rfl, ?_, fun q hq => ?_, fun _ => rfl, rfl, rfl, rfl, rfl, rfl⟩
  · exact State.checksum_recompute_self (by omega)
  · exact State.checksum_recompute_of_ne hq

/-- Settles O15: the index step of both commands leads to `IDLE` from a valid and from an invalid page index. -/
theorem copyAndRecallHaveNoEffect : Obligations.CopyAndRecallHaveNoEffect := by
  intro s p
  refine ⟨fun hphase => ?_, fun hphase => ?_⟩
  · exact (exec_instr_of_idx (c := .cpsp) p hphase).trans (selectPage_idle p)
  · exact (exec_instr_of_idx (c := .recallMem) p hphase).trans (selectPage_idle p)

/-- Settles O16: the index step, then the two equations of the send phase at `k < 8` and at `k = 8`. -/
theorem readScratchpadSendsPageThenChecksum : Obligations.ReadScratchpadSendsPageThenChecksum := by
  intro s p
  refine ⟨fun hphase => ?_, fun k j rest hp hphase hk hj hin => ?_, fun rest hp hphase hin => ?_,
    fun k rest hp hphase hin => ?_⟩
  · exact (exec_instr_of_idx (c := .rdsp) p hphase).trans (selectPage_eq p _)
  · rw [exec_rdsp_ok hp hphase hin, nextSendPhase_of_lt hk hj, State.responseByte_of_lt hk]
    rfl
  · exact exec_rdsp_ok hp hphase hin
  · exact exec_rdsp_fail hp hphase hin

/-- Settles O17: a byte received below offset 7, one at offset 7 and a failed receive have one equation each. -/
theorem writeScratchpadStoresThenRecomputes : Obligations.WriteScratchpadStoresThenRecomputes := by
  intro s p
  refine ⟨fun hphase => ?_, fun k rest hp hlen hphase => ⟨fun b hin => ?_, fun hin => ?_⟩⟩
  · exact (exec_instr_of_idx (c := .wrsp) p hphase).trans (selectPage_eq p _)
  · by_cases hk : k.val < 7
    · refine ⟨_, exec_wrsp_byte_of_lt (j := ⟨k.val + 1, by omega⟩) hp hphase hin rfl, State.readByte_stored b,
        fun j hj => ⟨?_, ?_⟩, fun _ => by omega, fun q _ => ?_, ?_, ?_, ?_, rfl, rfl⟩
      · exact congrArg (Phase.wr p) (Fin.ext hj.symm)
      all_goals simp
    · refine ⟨_, exec_wrsp_byte_last hp hphase hin (by omega), State.readByte_stored b, fun j _ => by omega,
        fun _ => ⟨rfl, ?_⟩, fun q hq => ?_, ?_, ?_, ?_, rfl, rfl⟩
      · exact State.checksum_recompute_self (by simp; omega)
      · simp [State.checksum_recompute_of_ne hq]
      all_goals simp
  · refine ⟨_, exec_wrsp_fail hp hphase hin, rfl, fun _ => rfl, ?_, fun q hq => ?_, rfl, rfl, rfl, rfl, rfl⟩
    · exact State.checksum_recompute_self (by omega)
    · exact State.checksum_recompute_of_ne hq

/-- Settles O18: the one event shown is the report. -/
theorem unrecognisedCommandReportsOnce : Obligations.UnrecognisedCommandReportsOnce := by
  intro s c hphase _
  refine ⟨_, exec_cmd_of_cmd c hphase, rfl, ?_⟩
  simp

/-- Settles O21: the checksum written is the one cached. -/
theorem convertTemperatureIsInvisible : Obligations.ConvertTemperatureIsInvisible := by
  rintro s ⟨hwf, hcoherent⟩ hphase
  have hok := State.cfg_ok_of_wf hwf
  have hpos := pageCount_pos_of_ok hok
  have hfresh : s.fresh 0 := hcoherent 0 hpos (by simp [hphase, Phase.writing])
  have hlen := State.crc_length_of_wf hwf
  rw [exec_convt_of_cmd hok hphase, State.recompute_of_fresh (by omega) hfresh]
  rfl

/-- Settles O23: address 0 is not read-only to the bus, and the flags are bits of the byte it holds. -/
theorem writtenConfigurationByteSetsEveryFlag : Obligations.WrittenConfigurationByteSetsEveryFlag := by
  intro s b rest hok hphase hin
  have hexec := exec_wrsp_byte_of_lt (p := 0) (k := 0) (j := 1) (pageCount_pos_of_ok hok) hphase hin rfl
  have hbyte : (s.storeFromBus (byteAddress 0 0) b).configByte = b := by
    simp [State.configByte, State.readByte_storeFromBus, byteAddress, readOnlyToBus]
  refine ⟨_, (step_wr_eq_exec hok hphase hin).trans hexec, ?_, ?_, ?_, ?_, ?_, ?_, ?_, ?_⟩ <;>
    exact congrArg (BitVec.getLsbD · _) hbyte

end Sys2Proof.Machine
end

section
/-! SUPPORT. The frame of each command: what `exec` can have done when it answers a next state (40_commands.md R110 to
R116). -/

namespace Sys2Proof.Machine

section

variable {s t : State}

theorem exec_convt_next (h : exec .convt s = .next t) : t = (s.recompute 0).endTransaction := by
  simp only [exec, execConvt] at h
  obtain ⟨-, h⟩ := inPhase_next h
  obtain ⟨-, h⟩ := withPage_next h
  cases h
  rfl

theorem exec_convv_next (h : exec .convv s = .next t) :
    t = ((s.writeHalf 3 s.selectedVoltage).recompute 0).endTransaction := by
  simp only [exec, execConvv] at h
  obtain ⟨-, h⟩ := inPhase_next h
  obtain ⟨-, h⟩ := withPage_next h
  cases h
  rfl

theorem selectPage_next_ports {p : Byte} {ph : Phase} (h : selectPage p ph s = .next t) :
    ∃ ph' ins tr, t = s.withPorts ph' ins tr := by
  rcases selectPage_next h with ⟨-, rfl⟩ | ⟨-, rfl⟩ <;> exact ⟨_, s.inputs, s.trace, rfl⟩

theorem sendStep_next_ports {p : Byte} {k : Fin 9} (h : sendStep p k s = .next t) :
    ∃ ph ins tr, t = s.withPorts ph ins tr := by
  unfold sendStep at h
  split at h <;> cases h
  · exact ⟨_, s.inputs.tail, _, rfl⟩
  · exact ⟨_, s.inputs.tail, _, rfl⟩
  · exact ⟨s.phase, s.inputs, s.trace, rfl⟩

/-- CPSP, RECALL, RDSP and CMD change nothing but the phase, the queue and what has been shown. -/
theorem exec_next_ports {i : Instr}
    (hi : (∃ p, i = .cpsp p) ∨ (∃ p, i = .recallMem p) ∨ (∃ p, i = .rdsp p) ∨ (∃ c, i = .cmd c))
    (h : exec i s = .next t) : ∃ ph ins tr, t = s.withPorts ph ins tr := by
  rcases hi with ⟨p, rfl⟩ | ⟨p, rfl⟩ | ⟨p, rfl⟩ | ⟨c, rfl⟩
  · exact selectPage_next_ports (inPhase_next h).2
  · exact selectPage_next_ports (inPhase_next h).2
  · simp only [exec, execRdsp] at h
    split at h
    · exact sendStep_next_ports (withPage_next (inPhase_next h).2).2
    · exact selectPage_next_ports (inPhase_next h).2
  · simp only [exec, execCmd] at h
    obtain ⟨-, h⟩ := inPhase_next h
    cases h
    exact ⟨_, s.inputs, _, rfl⟩

/-- What Write Scratchpad can have done: at most one store at the address of its phase, and at most a recomputation of
its page. -/
inductive WriteMove (s : State) (p : Byte) : State → Prop
  | ports (ph : Phase) (ins : List Input) (tr : List Event) : WriteMove s p (s.withPorts ph ins tr)
  | stored (k : Fin 8) (b : Byte) (ph : Phase) (ins : List Input) (tr : List Event) (hphase : s.phase = .wr p k) :
      WriteMove s p ((s.storeFromBus (byteAddress p k.val) b).withPorts ph ins tr)
  | storedLast (k : Fin 8) (b : Byte) (ph : Phase) (ins : List Input) (tr : List Event) (hphase : s.phase = .wr p k) :
      WriteMove s p (((s.storeFromBus (byteAddress p k.val) b).recompute p.toNat).withPorts ph ins tr)
  | recomputed (ph : Phase) (ins : List Input) (tr : List Event) :
      WriteMove s p ((s.recompute p.toNat).withPorts ph ins tr)

theorem dataStep_next {p : Byte} {k : Fin 8} (hphase : s.phase = .wr p k) (h : dataStep p k s = .next t) :
    WriteMove s p t := by
  unfold dataStep at h
  split at h
  · next b rest hin =>
    simp only [State.received_eq_withPorts hin, State.storeFromBus_withPorts] at h
    split at h <;> cases h
    · exact .stored k b _ rest _ hphase
    · exact .storedLast k b _ rest _ hphase
  · next rest hin =>
    rw [State.received_eq_withPorts hin] at h
    cases h
    exact .recomputed _ rest _
  · cases h
    exact .ports s.phase s.inputs s.trace

theorem exec_wrsp_next {p : Byte} (h : exec (.wrsp p) s = .next t) : WriteMove s p t := by
  simp only [exec, execWrsp] at h
  split at h
  · obtain ⟨hphase, h⟩ := inPhase_next h
    exact dataStep_next hphase (withPage_next h).2
  · obtain ⟨ph, ins, tr, rfl⟩ := selectPage_next_ports (inPhase_next h).2
    exact .ports ph ins tr

/-- A store of Write Scratchpad leaves every address but its own alone. -/
theorem State.readByte_storeFromBus_of_ne {a x : Nat} (b : Byte) (h : x ≠ a) :
    (s.storeFromBus a b).readByte x = s.readByte x := by
  simp [State.readByte_storeFromBus, h]

theorem WriteMove.readByte_of_ne {p : Byte} {a : Nat} (h : WriteMove s p t)
    (ha : ∀ k : Fin 8, s.phase = .wr p k → a ≠ byteAddress p k.val) : t.readByte a = s.readByte a := by
  cases h with
  | ports | recomputed => rfl
  | stored k b _ _ _ hphase | storedLast k b _ _ _ hphase =>
    exact State.readByte_storeFromBus_of_ne b (ha k hphase)

theorem WriteMove.checksum_of_ne {p : Byte} {q : Nat} (h : WriteMove s p t) (hq : q ≠ p.toNat) :
    t.checksum q = s.checksum q := by
  cases h with
  | ports => rfl
  | stored => exact State.storeFromBus_checksum _ _ _
  | storedLast => exact (State.checksum_recompute_of_ne hq).trans (State.storeFromBus_checksum _ _ _)
  | recomputed => exact State.checksum_recompute_of_ne hq

theorem WriteMove.keeps_registers {p : Byte} (h : WriteMove s p t) :
    t.vadReg = s.vadReg ∧ t.vddReg = s.vddReg ∧ t.cfg = s.cfg := by
  cases h <;> simp

/-- The voltage bytes are all that Convert Voltage stores. -/
theorem State.readByte_writeHalf_of_ne {a x : Nat} (h : Half) (hlow : x ≠ a) (hhigh : x ≠ a + 1) :
    (s.writeHalf a h).readByte x = s.readByte x := by
  simp [State.readByte_writeHalf, hlow, hhigh]

theorem State.readByte_writeHalf_of_held {a : Nat} {h : Half} (hlow : s.readByte a = lowByte h)
    (hhigh : s.readByte (a + 1) = highByte h) (x : Nat) : (s.writeHalf a h).readByte x = s.readByte x := by
  rw [State.readByte_writeHalf]
  split_ifs with ha ha'
  · rw [ha, hlow]
  · rw [ha', hhigh]
  · rfl

/-- Recomputing a fresh checksum over bytes that are as they were leaves every checksum as it was. -/
theorem State.checksum_recompute_held {u : State} {p : Nat} (hp : p < u.crc.length) (hfresh : s.fresh p)
    (hcfg : u.cfg = s.cfg) (hslots : ∀ q, u.checksum q = s.checksum q) (hbytes : ∀ a, u.readByte a = s.readByte a)
    (q : Nat) : (u.recompute p).checksum q = s.checksum q := by
  by_cases hq : q = p
  · rw [hq, State.checksum_recompute_self hp, hfresh, hcfg, State.pageBytes_congr fun k _ => hbytes _]
  · rw [State.checksum_recompute_of_ne hq, hslots]

/-- AD is a bit of byte 0, which Convert Voltage does not store. -/
theorem State.selectedVoltage_writeHalf (h : Half) : (s.writeHalf 3 h).selectedVoltage = s.selectedVoltage := by
  simp [State.selectedVoltage, State.ad, State.configByte, State.readByte_writeHalf]

end

/-- Settles O19: four of the commands change nothing but what the ports hold; CONVT recomputes page 0. -/
theorem commandsWithoutStoresKeepMemory : Obligations.CommandsWithoutStoresKeepMemory := by
  rintro s t i (rfl | hi) h
  · rw [exec_convt_next h]
    exact ⟨fun _ => rfl, rfl, rfl, rfl, fun q hq => State.checksum_recompute_of_ne (hq rfl)⟩
  · obtain ⟨ph, ins, tr, rfl⟩ := exec_next_ports hi h
    exact ⟨fun _ => rfl, rfl, rfl, rfl, fun _ _ => rfl⟩

/-- Settles O20: WRSP by the cases of `WriteMove`, CONVV by its one next state. -/
theorem commandsWithStoresKeepOtherMemory : Obligations.CommandsWithStoresKeepOtherMemory := by
  refine fun s t => ⟨fun p h => ?_, fun h => ?_⟩
  · have hmove := exec_wrsp_next h
    exact ⟨fun a ha => hmove.readByte_of_ne ha, fun q hq => hmove.checksum_of_ne hq, hmove.keeps_registers⟩
  · rw [exec_convv_next h]
    exact ⟨fun a h3 h4 => State.readByte_writeHalf_of_ne _ h3 h4, fun q hq => State.checksum_recompute_of_ne hq,
      rfl, rfl, rfl⟩

/-- Settles O22: byte 0 is not stored, so both executions select the same channel, and the second stores the bytes
that are there and the checksum of the same bytes. -/
theorem convertVoltageIsIdempotent : Obligations.ConvertVoltageIsIdempotent := by
  intro s t u hlen ht hu
  have hsel : State.selectedVoltage { t with phase := .cmd } = s.selectedVoltage := by
    rw [exec_convv_next ht]
    exact State.selectedVoltage_writeHalf _
  have hlow : t.readByte 3 = lowByte s.selectedVoltage := by
    simp [exec_convv_next ht, State.readByte_writeHalf]
  have hhigh : t.readByte 4 = highByte s.selectedVoltage := by
    simp [exec_convv_next ht, State.readByte_writeHalf]
  have hfresh : t.fresh 0 := by
    rw [exec_convv_next ht]
    exact State.checksum_recompute_self (by simp [hlen])
  have hslot : 0 < t.crc.length := by
    simp [exec_convv_next ht, hlen]
  rw [exec_convv_next hu, hsel]
  exact ⟨State.readByte_writeHalf_of_held hlow hhigh, State.checksum_recompute_held hslot hfresh rfl (fun _ => rfl)
    (State.readByte_writeHalf_of_held hlow hhigh), by rw [exec_convv_next ht]; rfl, rfl, rfl⟩

end Sys2Proof.Machine
end

section
/-! SUPPORT. What every step keeps, row by row of the transition table: the configuration and the history, the bytes the
bus may not write, the configuration byte, the pages other than the one written, the report count (40_commands.md R117,
60_exceptions.md R212). -/

namespace Sys2Proof.Machine

section

variable {s t : State}

/-! ### The configuration and the history -/

theorem State.recomputeTouched_frame (s : State) (pos n : Nat) :
    ∃ crc, s.recomputeTouched pos n = { s with crc := crc } ∧ crc.length = s.crc.length := by
  unfold State.recomputeTouched
  split
  · exact ⟨s.crc, rfl, rfl⟩
  · exact State.recomputePages_frame _ _

/-- An application-port operation shows its result and leaves the configuration, the phase and the queue alone. -/
theorem AppMove.frame {op : AppOp} (h : AppMove s op t) :
    ∃ mem crc vad vdd r,
      t = State.answer { s with mem := mem, crc := crc, vadReg := vad, vddReg := vdd } op r := by
  cases h with
  | read r => exact ⟨s.mem, s.crc, s.vadReg, s.vddReg, r, rfl⟩
  | measure a bytes => exact ⟨_, _, s.vadReg, s.vddReg, .done, rfl⟩
  | vad h => exact ⟨s.mem, s.crc, h, s.vddReg, .done, rfl⟩
  | vdd h => exact ⟨s.mem, s.crc, s.vadReg, h, .done, rfl⟩
  | write pos bytes =>
    obtain ⟨mem, hwrite⟩ := State.writeBytes_frame (s := s) (bytes.take (s.fitting pos bytes.length)) pos
    obtain ⟨crc, htouch, -⟩ := State.recomputeTouched_frame { s with mem := mem } pos (s.fitting pos bytes.length)
    exact ⟨mem, crc, s.vadReg, s.vddReg, _, by rw [hwrite, htouch]⟩

theorem Move.keeps_cfg (h : Move s t) : t.cfg = s.cfg := by
  cases h with
  | app op _ _ _ _ happ =>
    obtain ⟨mem, crc, vad, vdd, r, rfl⟩ := happ.frame
    rfl
  | _ => simp

theorem Move.keeps_history (h : Move s t) : s.trace <+: t.trace := by
  cases h with
  | app op _ _ _ _ happ =>
    obtain ⟨mem, crc, vad, vdd, r, rfl⟩ := happ.frame
    simp
  | _ => simp

theorem Move.takes_one_input (h : Move s t) : t.inputs = s.inputs.tail := by
  cases h with
  | wait hi => simp [hi]
  | app op _ _ _ _ happ =>
    obtain ⟨mem, crc, vad, vdd, r, rfl⟩ := happ.frame
    rfl
  | _ => simp

/-! ### The bytes and registers that the bus may not write -/

/-- Write Scratchpad stores nothing at a read-only address (10_state.md R33). -/
theorem State.readByte_storeFromBus_of_readOnly {a x : Nat} (b : Byte) (hx : readOnlyToBus x = true) :
    (s.storeFromBus a b).readByte x = s.readByte x := by
  rw [State.readByte_storeFromBus, if_neg]
  rintro ⟨rfl, ha⟩
  simp [hx] at ha

/-- An act of the bus changes a read-only byte only as the command byte of Convert Voltage does, and then only the
voltage bytes. -/
theorem Move.readByte_of_readOnly {inp : Input} {rest : List Input} {a : Nat} (h : Move s t)
    (hin : s.inputs = inp :: rest) (hbus : inp.fromBus = true) (ha : readOnlyToBus a = true)
    (hconvv : ¬(s.phase = .cmd ∧ inp = .recv (.byte 0xB4#8)) ∨ a ≠ 3 ∧ a ≠ 4) : t.readByte a = s.readByte a := by
  cases h with
  | app op rest' _ hi =>
    rw [hi] at hin
    cases hin
    cases hbus
  | convv b rest' hi hp hc =>
    rw [hi, decodeCommand_convv hc] at hin
    cases hin
    obtain ⟨h3, h4⟩ := hconvv.resolve_left (not_not_intro ⟨hp, rfl⟩)
    exact State.readByte_writeHalf_of_ne _ h3 h4
  | store | storeLast => exact State.readByte_storeFromBus_of_readOnly _ ha
  | _ => rfl

theorem Move.keeps_registers {inp : Input} {rest : List Input} (h : Move s t) (hin : s.inputs = inp :: rest)
    (hbus : inp.fromBus = true) : t.vadReg = s.vadReg ∧ t.vddReg = s.vddReg := by
  cases h with
  | app op rest' _ hi =>
    rw [hi] at hin
    cases hin
    cases hbus
  | _ => simp

/-! ### The configuration byte -/

/-- The measurements lie above the configuration byte. -/
theorem State.storeMeasurement_configByte {a : Nat} (bytes : Byte × Byte) (ha : 0 < a) :
    (s.storeMeasurement a bytes).configByte = s.configByte := by
  have hne : 0 ≠ a := by omega
  simp [State.configByte, State.storeMeasurement, State.readByte_writeByte, hne]

/-- The bytes that fit land in order from `pos` up, and nowhere else (41_memory_store.md R144). -/
theorem State.readByte_writeBytes_take {bytes : List Byte} {n : Nat} (hn : n ≤ bytes.length) (pos x : Nat) :
    (s.writeBytes pos (bytes.take n)).readByte x =
      if pos ≤ x ∧ x < pos + n then bytes.getD (x - pos) 0#8 else s.readByte x := by
  rw [State.readByte_writeBytes, List.length_take_of_le hn]
  split_ifs with hx
  · simp only [List.getD_eq_getElem?_getD]
    rw [List.getElem?_take_of_lt (by omega)]
  · rfl

theorem State.fitting_le (s : State) (pos len : Nat) : s.fitting pos len ≤ len := Nat.min_le_left _ _

/-- Of the application port only `writeRange` at position 0, with a byte to write, reaches the configuration byte. -/
theorem AppMove.configByte_changed {op : AppOp} (h : AppMove s op t) (hne : t.configByte ≠ s.configByte) :
    ∃ b bs, op = .writeRange 0 (b :: bs) ∧ t.configByte = b := by
  cases h with
  | read | vad | vdd => exact absurd rfl hne
  | measure a bytes ha => exact absurd (State.storeMeasurement_configByte bytes (by omega)) hne
  | write pos bytes hop hpos =>
    have hfit := State.fitting_le s pos bytes.length
    simp only [State.configByte, State.answer_readByte, State.recomputeTouched_readByte,
      State.readByte_writeBytes_take hfit] at hne ⊢
    split_ifs at hne ⊢ with hzero
    · obtain rfl : pos = 0 := by omega
      cases bytes with
      | nil =>
        have hnone : s.fitting 0 [].length = 0 := Nat.le_zero.mp hfit
        omega
      | cons b bs => exact ⟨b, bs, hop, rfl⟩
    · exact absurd rfl hne

/-- A store of Write Scratchpad that changes the configuration byte is the one of page 0, offset 0. -/
theorem State.storeFromBus_configByte_changed {p b : Byte} {k : Nat}
    (hne : (s.storeFromBus (byteAddress p k) b).configByte ≠ s.configByte) :
    8 * p.toNat + k = 0 ∧ (s.storeFromBus (byteAddress p k) b).configByte = b := by
  simp only [State.configByte, State.readByte_stored] at hne ⊢
  split_ifs at hne ⊢ with hzero
  · exact ⟨hzero.1.symm, rfl⟩
  · exact absurd rfl hne

/-- The transaction steps reach the configuration byte by a store of Write Scratchpad alone. -/
theorem Move.configByte_changed (h : Move s t) (hne : t.configByte ≠ s.configByte) :
    (∃ (p b : Byte) (k : Fin 8) (rest : List Input), s.phase = .wr p k ∧ 8 * p.toNat + k.val = 0 ∧
      s.inputs = .recv (.byte b) :: rest ∧ t.configByte = b) ∨
    (∃ (b : Byte) (bs : List Byte) (rest : List Input), s.inputs = .app (.writeRange 0 (b :: bs)) :: rest ∧
      t.configByte = b) := by
  cases h with
  | app op rest _ hi _ happ =>
    obtain ⟨b, bs, rfl, hb⟩ := happ.configByte_changed hne
    exact .inr ⟨b, bs, rest, hi, hb⟩
  | convv => exact absurd (State.readByte_writeHalf_of_ne _ (by decide) (by decide)) hne
  | store p k b rest hi hp | storeLast p k b rest hi hp =>
    obtain ⟨haddr, hb⟩ := State.storeFromBus_configByte_changed (s := s.received (.byte b)) hne
    exact .inl ⟨p, b, k, rest, hp, haddr, hi, hb⟩
  | _ => exact absurd rfl hne

/-! ### The pages of a transaction -/

/-- An act of the bus leaves every page alone but the one being written, and page 0 in `CMD`. -/
theorem Move.keeps_other_pages {inp : Input} {rest : List Input} {q : Nat} (h : Move s t)
    (hin : s.inputs = inp :: rest) (hbus : inp.fromBus = true) (hq : s.phase.writing ≠ some q)
    (hcmd : s.phase = .cmd → q ≠ 0) :
    (∀ a, a / 8 = q → t.readByte a = s.readByte a) ∧ t.checksum q = s.checksum q := by
  cases h with
  | app op rest' _ hi =>
    rw [hi] at hin
    cases hin
    cases hbus
  | convt _ _ _ hp => exact ⟨fun _ _ => rfl, State.checksum_recompute_of_ne (hcmd hp)⟩
  | convv _ _ _ hp =>
    have hq0 := hcmd hp
    exact ⟨fun a ha => State.readByte_writeHalf_of_ne _ (by omega) (by omega), State.checksum_recompute_of_ne hq0⟩
  | store p k b _ _ hp =>
    have hqp : p.toNat ≠ q := by simpa [hp, Phase.writing] using hq
    exact ⟨fun a ha => State.readByte_storeFromBus_of_ne b (by unfold byteAddress; omega),
      State.storeFromBus_checksum _ _ _⟩
  | storeLast p k b _ _ hp =>
    have hqp : p.toNat ≠ q := by simpa [hp, Phase.writing] using hq
    exact ⟨fun a ha => State.readByte_storeFromBus_of_ne b (by unfold byteAddress; omega),
      (State.checksum_recompute_of_ne hqp.symm).trans (State.storeFromBus_checksum _ _ _)⟩
  | dataFail p k _ _ hp =>
    have hqp : p.toNat ≠ q := by simpa [hp, Phase.writing] using hq
    exact ⟨fun _ _ => rfl, State.checksum_recompute_of_ne hqp.symm⟩
  | _ => exact ⟨fun _ _ => rfl, rfl⟩

/-- After `WR(p, k)` comes `WR` of the same page or `IDLE` (R117). -/
theorem Move.writing_stays {q : Nat} (h : Move s t) (hq : s.phase.writing = some q) :
    t.phase.writing = some q ∨ t.phase = .idle := by
  cases h with
  | wait | unasked => exact .inl hq
  | store p k _ _ _ hp =>
    rw [hp] at hq
    exact .inl hq
  | start _ _ hp | app _ _ _ _ hp | paged _ _ _ _ hp | beginRead _ _ _ hp | beginWrite _ _ _ hp | sendOk _ _ _ _ hp =>
    rw [hp] at hq
    cases hq
  | _ => exact .inr rfl

/-! ### Error reports -/

/-- The one report of a step is of an unrecognised command byte. -/
theorem Move.reportCount_eq (h : Move s t) (hnone : ∀ c, s.errorSituation ≠ some (.unrecognisedCommand c)) :
    reportCount t.trace = reportCount s.trace := by
  cases h with
  | app op _ _ _ _ happ =>
    obtain ⟨mem, crc, vad, vdd, r, rfl⟩ := happ.frame
    simp
  | unrecognised b rest hi hp hc =>
    have hb := unassigned_of_decodeCommand hc
    exact absurd (by simp [State.errorSituation, hi, hp, hb]) (hnone b)
  | _ => simp

end

/-- Settles O44: the three clauses row by row. -/
theorem stepsKeepConfigurationAndHistory : Obligations.StepsKeepConfigurationAndHistory := by
  intro s t hstep
  obtain ⟨-, hmove⟩ := step_cases hstep
  exact ⟨hmove.keeps_cfg, hmove.keeps_history, hmove.takes_one_input⟩

/-- Settles O45: the six bytes are those read-only to the bus, and only Convert Voltage stores at such an address. -/
theorem busCannotWriteMeasurements : Obligations.BusCannotWriteMeasurements := by
  intro s t inp rest hin hbus hstep
  obtain ⟨-, hmove⟩ := step_cases hstep
  have hkeep (a : Nat) (ha : readOnlyToBus a = true) (hvolt : a ≠ 3 ∧ a ≠ 4) : t.readByte a = s.readByte a :=
    hmove.readByte_of_readOnly hin hbus ha (.inr hvolt)
  obtain ⟨hvad, hvdd⟩ := hmove.keeps_registers hin hbus
  exact ⟨hkeep 1 rfl (by decide), hkeep 2 rfl (by decide), hkeep 5 rfl (by decide), hkeep 6 rfl (by decide),
    hvad, hvdd, fun hconvv => ⟨hmove.readByte_of_readOnly hin hbus rfl (.inl hconvv),
      hmove.readByte_of_readOnly hin hbus rfl (.inl hconvv)⟩⟩

/-- Settles O46: of all the rows only a store of Write Scratchpad and `writeRange` reach address 0. -/
theorem flagsChangeOnlyByWritesToByteZero : Obligations.FlagsChangeOnlyByWritesToByteZero := by
  intro s t hstep hne
  exact (step_cases hstep).2.configByte_changed hne

/-- Settles O47: what a row stores and recomputes lies in the page of the phase, or in page 0 for a command of `CMD`. -/
theorem transactionsTouchOnePage : Obligations.TransactionsTouchOnePage := by
  intro s t inp rest hin hbus hstep
  obtain ⟨-, hmove⟩ := step_cases hstep
  exact ⟨fun q hq hcmd => hmove.keeps_other_pages hin hbus hq hcmd, fun q hq => hmove.writing_stays hq⟩

/-- Settles O26: an unrecognised command byte has its own equation of the step; no other row reports. -/
theorem onlyUnrecognisedCommandsReport : Obligations.OnlyUnrecognisedCommandsReport := by
  intro s t hstep
  obtain ⟨hok, hmove⟩ := step_cases hstep
  refine ⟨fun c herr => ?_, hmove.reportCount_eq⟩
  cases State.errorSituation_cases herr with
  | unassigned _ rest hin hphase hc =>
    rw [step_cmd_of_unassigned hok hphase hin hc] at hstep
    cases hstep
    exact ⟨by simp, by simp [reportCount]⟩

end Sys2Proof.Machine
end

section
/-! SUPPORT. The invariant: every row of the transition table and every application-port operation keeps the shape of
the state and the checksums of the pages not being written (10_state.md R22, 41_memory_store.md R141, R144). -/

namespace Sys2Proof.Machine

section

variable {s t : State}

/-! ### The shape of the state -/

theorem State.SameShape.withPorts (h : State.SameShape s t) (ph : Phase) (ins : List Input) (tr : List Event) :
    State.SameShape s (t.withPorts ph ins tr) :=
  ⟨h.cfg, h.crc, h.mem⟩

theorem State.sameShape_received {a : RecvAnswer} : State.SameShape s (s.received a) := ⟨rfl, rfl, id⟩

theorem State.sameShape_writeHalf {a : Nat} (h : Half) (ha : a + 1 < s.cfg.memSize) :
    State.SameShape s (s.writeHalf a h) :=
  (State.sameShape_writeByte (lowByte h) (by omega)).trans (State.sameShape_writeByte (highByte h) ha)

theorem State.sameShape_storeMeasurement {a : Nat} (bytes : Byte × Byte) (ha : a + 1 < s.cfg.memSize) :
    State.SameShape s (s.storeMeasurement a bytes) :=
  ((State.sameShape_writeByte bytes.1 (by omega)).trans (State.sameShape_writeByte bytes.2 ha)).trans
    (State.sameShape_recompute 0)

theorem State.sameShape_recomputeTouched (pos n : Nat) : State.SameShape s (s.recomputeTouched pos n) := by
  unfold State.recomputeTouched
  split
  · exact .rfl
  · exact State.sameShape_recomputePages _ _

/-- The bytes that fit end inside the scratchpad. -/
theorem State.fitting_end {pos : Nat} (len : Nat) (hpos : pos ≤ s.cfg.memSize) :
    pos + s.fitting pos len ≤ s.cfg.memSize := by
  unfold State.fitting
  omega

theorem AppMove.sameShape {op : AppOp} (h : AppMove s op t) : State.SameShape s t := by
  cases h with
  | read | vad | vdd => exact ⟨rfl, rfl, id⟩
  | measure a bytes ha hp =>
    have hend : a + 1 < s.cfg.memSize := by
      unfold Config.memSize
      omega
    exact (State.sameShape_storeMeasurement bytes hend).withPorts _ _ _
  | write pos bytes _ hpos =>
    have hend : pos + (bytes.take (s.fitting pos bytes.length)).length ≤ s.cfg.memSize := by
      rw [List.length_take_of_le (State.fitting_le s pos bytes.length)]
      exact State.fitting_end _ hpos.le
    exact ((State.sameShape_writeBytes _ pos hend).trans (State.sameShape_recomputeTouched pos _)).withPorts _ _ _

theorem byteAddress_lt_memSize {c : Config} {p : Byte} {k : Nat} (hp : p.toNat < c.pageCount) (hk : k < 8) :
    byteAddress p k < c.memSize := by
  unfold byteAddress Config.memSize
  omega

theorem Move.sameShape (hok : s.cfg.ok = true) (h : Move s t) : State.SameShape s t := by
  have hsize := eight_le_memSize_of_ok hok
  cases h with
  | app op _ _ _ _ happ => exact ⟨happ.sameShape.cfg, happ.sameShape.crc, happ.sameShape.mem⟩
  | convt => exact (State.sameShape_recompute 0).withPorts _ _ _
  | convv =>
    exact ((State.sameShape_writeHalf s.selectedVoltage (by omega)).trans
      (State.sameShape_recompute 0)).withPorts _ _ _
  | store p k b _ _ _ hv =>
    exact (State.sameShape_received.trans
      (State.sameShape_storeFromBus b (byteAddress_lt_memSize hv k.isLt))).withPorts _ _ _
  | storeLast p k b _ _ _ hv =>
    exact ((State.sameShape_received.trans
      (State.sameShape_storeFromBus b (byteAddress_lt_memSize hv k.isLt))).trans
        (State.sameShape_recompute p.toNat)).withPorts _ _ _
  | dataFail p => exact (State.sameShape_recompute p.toNat).withPorts _ _ _
  | _ => exact ⟨rfl, rfl, id⟩

/-- Every page a phase names has passed the index step (R106). -/
theorem Move.keeps_pageOk (h : Move s t) (hpage : s.phase.pageOk s.cfg.pageCount = true) :
    t.phase.pageOk s.cfg.pageCount = true := by
  cases h with
  | wait | unasked => exact hpage
  | app op _ _ _ _ happ =>
    obtain ⟨mem, crc, vad, vdd, r, rfl⟩ := happ.frame
    exact hpage
  | sendOk p k _ _ _ hv =>
    rw [State.setPhase_phase, nextSendPhase]
    split
    · exact decide_eq_true hv
    · rfl
  | beginRead p _ _ _ hv | beginWrite p _ _ _ hv | store p _ _ _ _ _ hv => exact decide_eq_true hv
  | _ => rfl

theorem Move.keeps_wf (h : Move s t) (hwf : s.wf = true) : t.wf = true := by
  have hshape := h.sameShape (State.cfg_ok_of_wf hwf)
  have hpage := h.keeps_pageOk (State.pageOk_of_wf hwf)
  simp only [State.wf, Bool.and_eq_true, beq_iff_eq] at hwf ⊢
  obtain ⟨⟨⟨hok, hlen⟩, hmem⟩, -⟩ := hwf
  exact ⟨⟨⟨hshape.cfg ▸ hok, by rw [hshape.crc, hshape.cfg, hlen]⟩, hshape.mem hmem⟩, hshape.cfg ▸ hpage⟩

/-! ### Fresh checksums -/

/-- A page stays fresh while its bytes and its checksum stay. -/
theorem State.fresh_of_kept {q : Nat} (hcfg : t.cfg = s.cfg)
    (hbytes : ∀ k, k < 8 → t.readByte (8 * q + k) = s.readByte (8 * q + k)) (hslot : t.checksum q = s.checksum q)
    (h : s.fresh q) : t.fresh q := by
  rw [State.fresh, hslot, hcfg, State.pageBytes_congr hbytes]
  exact h

theorem State.fresh_writeByte {a q : Nat} (b : Byte) (ha : a / 8 ≠ q) (h : s.fresh q) : (s.writeByte a b).fresh q :=
  State.fresh_of_kept (s := s) rfl (fun k hk => State.readByte_writeByte_of_ne (by omega) b) rfl h

theorem State.fresh_storeFromBus {a q : Nat} (b : Byte) (ha : a / 8 ≠ q) (h : s.fresh q) :
    (s.storeFromBus a b).fresh q := by
  unfold State.storeFromBus
  split
  · exact h
  · exact State.fresh_writeByte b ha h

/-- A recomputation makes its own page fresh and leaves the others as they are. -/
theorem State.fresh_recompute {p q : Nat} (hp : p < s.crc.length) (h : q ≠ p → s.fresh q) :
    (s.recompute p).fresh q := by
  by_cases hq : q = p
  · subst hq
    exact State.checksum_recompute_self hp
  · exact State.fresh_of_kept (s := s) rfl (fun _ _ => rfl) (State.checksum_recompute_of_ne hq) (h hq)

theorem State.fresh_storeMeasurement {a q : Nat} (bytes : Byte × Byte) (ha : a < 7) (hslots : 0 < s.crc.length)
    (h : s.fresh q) : (s.storeMeasurement a bytes).fresh q :=
  State.fresh_recompute hslots fun hq =>
    State.fresh_writeByte _ (by omega) (State.fresh_writeByte _ (by omega) h)

/-- The bytes `pos .. pos+n-1` touch page `q`. -/
def touches (pos n q : Nat) : Prop := 0 < n ∧ pos < 8 * q + 8 ∧ 8 * q < pos + n

/-- The pages touched are recomputed and no others (R144). -/
theorem State.checksum_recomputeTouched {pos n : Nat} (hend : pos + n ≤ 8 * s.crc.length) (q : Nat) :
    (touches pos n q → (s.recomputeTouched pos n).checksum q = crc8Fn s.cfg (s.pageBytes q)) ∧
      (¬touches pos n q → (s.recomputeTouched pos n).checksum q = s.checksum q) := by
  unfold State.recomputeTouched touches
  simp only [Nat.shiftRight_eq_div_pow]
  split
  · exact ⟨fun h => by omega, fun _ => rfl⟩
  · rw [State.checksum_recomputePages _ _ _ (by omega)]
    exact ⟨fun h => if_pos (by omega), fun h => if_neg (by omega)⟩

theorem State.recomputeTouched_cfg (pos n : Nat) : (s.recomputeTouched pos n).cfg = s.cfg := by
  obtain ⟨crc, h, -⟩ := s.recomputeTouched_frame pos n
  rw [h]

theorem State.fresh_recomputeTouched {pos n q : Nat} (hend : pos + n ≤ 8 * s.crc.length)
    (h : ¬touches pos n q → s.fresh q) : (s.recomputeTouched pos n).fresh q := by
  obtain ⟨htouched, hkept⟩ := State.checksum_recomputeTouched hend q
  by_cases hq : touches pos n q
  · rw [State.fresh, htouched hq, State.recomputeTouched_cfg,
      State.pageBytes_congr fun k _ => State.recomputeTouched_readByte _ _ _]
  · exact State.fresh_of_kept (s := s) (State.recomputeTouched_cfg pos n)
      (fun k _ => State.recomputeTouched_readByte _ _ _) (hkept hq) (h hq)

theorem State.writeBytes_cfg (a : Nat) (bs : List Byte) : (s.writeBytes a bs).cfg = s.cfg := by
  obtain ⟨mem, h⟩ := State.writeBytes_frame (s := s) bs a
  rw [h]

theorem State.writeBytes_crc (a : Nat) (bs : List Byte) : (s.writeBytes a bs).crc = s.crc := by
  obtain ⟨mem, h⟩ := State.writeBytes_frame (s := s) bs a
  rw [h]

theorem State.writeBytes_checksum (a : Nat) (bs : List Byte) (q : Nat) :
    (s.writeBytes a bs).checksum q = s.checksum q := by
  rw [State.checksum, State.writeBytes_crc, State.checksum]

theorem State.fresh_writeBytes_take {pos n q : Nat} {bytes : List Byte} (hn : n ≤ bytes.length)
    (hq : ¬touches pos n q) (h : s.fresh q) : (s.writeBytes pos (bytes.take n)).fresh q := by
  refine State.fresh_of_kept (s := s) (State.writeBytes_cfg _ _) (fun k hk => ?_) (State.writeBytes_checksum _ _ _) h
  rw [State.readByte_writeBytes_take hn, if_neg]
  unfold touches at hq
  omega

theorem AppMove.keeps_fresh {op : AppOp} {q : Nat} (hlen : s.crc.length = s.cfg.pageCount + 1) (h : AppMove s op t)
    (hq : s.fresh q) : t.fresh q := by
  cases h with
  | read | vad | vdd => exact hq
  | measure a bytes ha => exact State.fresh_storeMeasurement bytes (by omega) (by omega) hq
  | write pos bytes _ hpos =>
    have hfit := State.fitting_le s pos bytes.length
    have hend := State.fitting_end bytes.length hpos.le
    have hslots : pos + s.fitting pos bytes.length ≤
        8 * (s.writeBytes pos (bytes.take (s.fitting pos bytes.length))).crc.length := by
      rw [State.writeBytes_crc]
      unfold Config.memSize at hend
      omega
    exact State.fresh_recomputeTouched hslots fun hnot => State.fresh_writeBytes_take hfit hnot hq

/-- A row that recomputes makes its page fresh; a row that stores without recomputing is in the middle of a write. -/
theorem Move.keeps_coherent (hwf : s.wf = true) (h : Move s t) (hco : s.coherent) : t.coherent := by
  have hlen := State.crc_length_of_wf hwf
  intro q hq hw
  rw [h.keeps_cfg] at hq
  cases h with
  | wait | unasked => exact hco q hq hw
  | app op _ _ _ hp happ =>
    exact happ.keeps_fresh (s := s.takeInput) hlen (hco q hq (by simp [hp, Phase.writing]))
  | fetchFail _ _ hp =>
    rcases hp with hp | ⟨c, hp⟩ <;> exact hco q hq (by simp [hp, Phase.writing])
  | convt _ _ _ hp =>
    exact State.fresh_recompute (s := s.received _) (by simp [hlen]) fun _ => hco q hq (by simp [hp, Phase.writing])
  | convv _ _ _ hp =>
    refine State.fresh_recompute (s := (s.received _).writeHalf 3 _) (by simp [hlen]) fun hq0 => ?_
    exact State.fresh_writeByte _ (by omega) (State.fresh_writeByte _ (by omega)
      (hco q hq (by simp [hp, Phase.writing])))
  | store p k b _ _ hp =>
    have hpq : p.toNat ≠ q := by simpa [Phase.writing] using hw
    exact State.fresh_storeFromBus (s := s.received _) b (by unfold byteAddress; omega)
      (hco q hq (by simpa [hp, Phase.writing] using hpq))
  | storeLast p k b _ _ hp hv =>
    refine State.fresh_recompute (s := (s.received _).storeFromBus _ b) (by simp; omega) fun hqp => ?_
    exact State.fresh_storeFromBus (s := s.received _) b (by unfold byteAddress; omega)
      (hco q hq (by simpa [hp, Phase.writing] using hqp.symm))
  | dataFail p k _ _ hp hv =>
    exact State.fresh_recompute (s := s.received _) (by simp; omega) fun hqp =>
      hco q hq (by simpa [hp, Phase.writing] using hqp.symm)
  | start _ _ hp | paged _ _ _ _ hp | unrecognised _ _ _ hp | badIndex _ _ _ _ hp | inert _ _ _ _ hp
  | beginRead _ _ _ hp | beginWrite _ _ _ hp | sendOk _ _ _ _ hp | sendFail _ _ _ _ hp =>
    exact hco q hq (by simp [hp, Phase.writing])

end

/-- Settles O43: the shape and the fresh checksums are kept row by row. -/
theorem everyStepKeepsTheInvariant : Obligations.EveryStepKeepsTheInvariant := by
  rintro s t ⟨hwf, hco⟩ hstep
  obtain ⟨-, hmove⟩ := step_cases hstep
  exact ⟨hmove.keeps_wf hwf, hmove.keeps_coherent hwf hco⟩

end Sys2Proof.Machine
end

section
/-! SUPPORT. Reset, the residue of the default checksum function, and the checksums that the ports show
(70_reset_and_hazards.md section 1, 41_memory_store.md R140, R146). -/

namespace Sys2Proof.Machine

section

variable {c : Config}

/-! ### Reset -/

theorem length_image_of_ok (hok : c.ok = true) : c.factoryImage.length = 8 * c.pageCount := by
  obtain ⟨-, himage⟩ : c.pageCountOk = true ∧ c.imageOk = true := by simpa [Config.ok] using hok
  simp only [Config.imageOk, Config.memSize, beq_iff_eq] at himage
  omega

/-- Reset writes no cell: every byte is the one reset left there. -/
theorem State.resetWith_readByte (a : Nat) : (State.resetWith c).readByte a = resetByte c a := rfl

theorem resetByte_zero : resetByte c 0 = (c.factoryImage.getD 0 0#8 &&& 0x84#8) ||| 0x0B#8 := rfl

theorem image_getElem? {a : Nat} (hok : c.ok = true) (ha : a < 8 * c.pageCount) :
    c.factoryImage[a]? = some (c.factoryImage.getD a 0#8) := by
  have hlt : a < c.factoryImage.length := by rwa [length_image_of_ok hok]
  simp [hlt]

theorem length_resetChecksums : (resetChecksums c).length = c.pageCount + 1 := by
  simp [resetChecksums]

/-- Reset computes every page's checksum after the patch (R222, R223). -/
theorem State.resetWith_fresh {p : Nat} (hp : p < c.pageCount) : (State.resetWith c).fresh p := by
  change (resetChecksums c).getD p 0#8 = crc8Fn c ((List.range' (8 * p) 8).map (resetByte c))
  simp [resetChecksums, List.getElem?_append_left, hp]

theorem State.resetWith_wf (hok : c.ok = true) : (State.resetWith c).wf = true := by
  simp only [State.wf, Bool.and_eq_true, beq_iff_eq]
  exact ⟨⟨⟨hok, length_resetChecksums⟩, State.resetWith_mem_wf c⟩, rfl⟩

theorem State.resetWith_inv (hok : c.ok = true) : (State.resetWith c).Inv :=
  ⟨State.resetWith_wf hok, fun _ hp _ => State.resetWith_fresh hp⟩

/-- The patch of byte 0 keeps the bits 2 and 7, sets the bits 0, 1 and 3 and clears the others (R221). -/
theorem getLsbD_patched (b : Byte) (i : Nat) (hi : i < 8) :
    ((b &&& 0x84#8) ||| 0x0B#8).getLsbD i =
      if i = 2 ∨ i = 7 then b.getLsbD i else decide (i = 0 ∨ i = 1 ∨ i = 3) := by
  interval_cases i <;> simp

end

/-- Settles O31: every checksum is computed at reset, and the reference configuration is one that is admitted. -/
theorem resetMeetsTheInvariant : Obligations.ResetMeetsTheInvariant :=
  ⟨fun _ hok => State.resetWith_inv hok, State.resetWith_inv (by decide)⟩

/-- Settles O30: the bytes are those of the image but for byte 0, whose flags are read off its patch. -/
theorem resetLeavesTheStatedValues : Obligations.ResetLeavesTheStatedValues := by
  intro c hok
  have hpos := pageCount_pos_of_ok hok
  have hbit (i : Nat) (hi : i < 8) := getLsbD_patched (c.factoryImage.getD 0 0#8) i hi
  refine ⟨fun a h1 ha => ?_, ⟨_, image_getElem? hok (by omega), resetByte_zero, hbit 2 (by decide), hbit 7 (by decide)⟩,
    hbit 0 (by decide), hbit 1 (by decide), hbit 3 (by decide), hbit 4 (by decide), hbit 5 (by decide),
    hbit 6 (by decide), fun p hp => State.resetWith_fresh hp, rfl, rfl, rfl, rfl⟩
  rw [image_getElem? hok ha, State.resetWith_readByte, resetByte, if_neg (by omega)]

section

/-! ### The residue of the default checksum function -/

/-- A checksum met by its own bits only shifts out: no round mixes the polynomial in. -/
theorem crcBits_self (n : Nat) (b : Byte) : crcBits n b b = b >>> n := by
  induction n generalizing b with
  | zero => simp [crcBits]
  | succ n ih =>
    have hbit : crcBit b b = b >>> 1 := by simp [crcBit]
    rw [crcBits, hbit, ih, ← BitVec.shiftRight_add, Nat.add_comm]

theorem crcByte_self (b : Byte) : crcByte b b = 0#8 := by
  rw [crcByte, crcBits_self]
  exact BitVec.ushiftRight_eq_zero (Nat.le_refl 8)

theorem crc8Default_append_self (bytes : List Byte) : crc8Default (bytes ++ [crc8Default bytes]) = 0#8 := by
  rw [crc8Default, List.foldl_append]
  exact crcByte_self _

theorem hostCheck_of_standard {c : Config} (hfn : c.crcFn = .standard) (page : List Byte) :
    hostCheck c (page ++ [crc8Fn c page]) = true := by
  rw [hostCheck, crc8Fn_of_standard hfn, crc8Fn_of_standard hfn, crc8Default_append_self]
  rfl

/-- No page is being written while one is being read (40_commands.md R117). -/
theorem State.fresh_of_rd {s : State} {p : Byte} {k : Fin 9} (hinv : s.Inv) (hphase : s.phase = .rd p k) :
    s.fresh p.toNat :=
  hinv.2 _ (State.page_lt_of_wf_rd hinv.1 hphase) (by simp [hphase, Phase.writing])

end

/-- Settles O28: the checksum cached is that of the page, and a checksum met by itself leaves zero. -/
theorem responsesPassTheHostCheck : Obligations.ResponsesPassTheHostCheck := by
  refine ⟨fun c page hfn => hostCheck_of_standard hfn page, fun s p k hinv hfn hphase => ?_⟩
  rw [State.responseBytes, State.fresh_of_rd hinv hphase]
  exact hostCheck_of_standard hfn _

/-- Settles O29: both ports show the cached checksum, which the invariant makes that of the page's bytes. -/
theorem checksumsShownAreFresh : Obligations.ChecksumsShownAreFresh := by
  intro s rest hinv
  have hok := State.cfg_ok_of_wf hinv.1
  refine ⟨fun p a hphase hin => ?_, fun p hp hphase hin => ?_⟩
  · have hpage := State.page_lt_of_wf_rd hinv.1 hphase
    have hshown : s.responseByte p 8 = crc8Fn s.cfg (s.pageBytes p.toNat) := State.fresh_of_rd hinv hphase
    rw [← hshown, step_rd_eq_exec hok hphase hin]
    cases a with
    | ok => exact ⟨_, exec_rdsp_ok hpage hphase hin, rfl⟩
    | fail => exact ⟨_, exec_rdsp_fail hpage hphase hin, rfl⟩
  · have hfresh : s.fresh p := hinv.2 p hp (by simp [hphase, Phase.writing])
    rw [step_app_of_idle hok hphase hin, State.takeInput_of_inputs hin, ← hfresh]
    exact if_pos hp

end Sys2Proof.Machine
end

section
/-! SUPPORT. The application-port operations as equations, one per operation, and what a measurement stored on page 0
leaves (10_state.md R42, 42_quantity_codec.md R160 to R171, 41_memory_store.md R143 to R145). -/

namespace Sys2Proof.Machine

section

variable {s : State}

theorem execApp_setTemperatureReal (q : Rat) (hpos : 0 < s.cfg.pageCount) :
    execApp (.setTemperatureReal (.rational q)) s =
      .next ((s.storeMeasurement 1 (encTempReal s.cfg.tempLsbMask q)).answer
        (.setTemperatureReal (.rational q)) .done) := by
  simp only [execApp, setTemperatureReal, withPage_of_lt hpos]

theorem execApp_setTemperatureInt (n : Int) (hpos : 0 < s.cfg.pageCount) :
    execApp (.setTemperatureInt n) s =
      .next ((s.storeMeasurement 1 (encTempInt n)).answer (.setTemperatureInt n) .done) := by
  simp only [execApp, setTemperatureInt, withPage_of_lt hpos]

theorem execApp_getTemperature (hpos : 0 < s.cfg.pageCount) :
    execApp .getTemperature s = .next (s.answer .getTemperature (.number (s8 (s.readByte 2)))) := by
  simp only [execApp, getTemperature, withPage_of_lt hpos]

theorem withVoltage_of_fits {v : Int} {k : Half → Result} (hv : 0 ≤ v ∧ v ≤ 65535) :
    withVoltage v k = k (bits16 v) :=
  if_pos hv

theorem execApp_setVADVoltage {v : Int} (hv : 0 ≤ v ∧ v ≤ 65535) :
    execApp (.setVADVoltage v) s = .next ((s.setVad (encVolt (bits16 v))).answer (.setVADVoltage v) .done) := by
  simp only [execApp, setVADVoltage, withVoltage_of_fits hv]

theorem execApp_setVDDVoltage {v : Int} (hv : 0 ≤ v ∧ v ≤ 65535) :
    execApp (.setVDDVoltage v) s = .next ((s.setVdd (encVolt (bits16 v))).answer (.setVDDVoltage v) .done) := by
  simp only [execApp, setVDDVoltage, withVoltage_of_fits hv]

theorem execApp_setCurrent {i : Int} (hpos : 0 < s.cfg.pageCount) (hi : -32768 ≤ i ∧ i ≤ 32767) :
    execApp (.setCurrent i) s = .next ((s.storeMeasurement 5 (encCurrent i)).answer (.setCurrent i) .done) := by
  simp only [execApp, setCurrent, if_pos hi, withPage_of_lt hpos]

theorem execApp_getCurrent (hpos : 0 < s.cfg.pageCount) :
    execApp .getCurrent s =
      .next (s.answer .getCurrent (.number (decCurrent (s.readByte 5) (s.readByte 6)))) := by
  simp only [execApp, getCurrent, withPage_of_lt hpos]

theorem execApp_checksumOf {p : Nat} (hp : p < s.cfg.pageCount) :
    execApp (.checksumOf p) s = .next (s.answer (.checksumOf p) (.checksum (s.checksum p))) :=
  if_pos hp

/-- An operation served in `IDLE` finds its call taken off the queue. -/
theorem step_app_eq {op : AppOp} {rest : List Input} (hok : s.cfg.ok = true) (hphase : s.phase = .idle)
    (hin : s.inputs = .app op :: rest) : step s = execApp op { s with inputs := rest } := by
  rw [step_app_of_idle hok hphase hin, State.takeInput_of_inputs hin]

end

/-- Settles O9: the configuration is checked first, the phase by both ports, the operand by each operation. -/
theorem inputsWithoutMeaningAreRefused : Obligations.InputsWithoutMeaningAreRefused := by
  refine ⟨fun s hpages => ?_, fun s rest hok => ⟨fun hidle => ⟨fun p hin hp => ?_, fun v hin hv => ?_,
    fun i hin hi => ?_, fun hin => ?_⟩,
    fun hbusy => ⟨step_start_of_busy hok hbusy, fun op => step_app_of_busy hok hbusy⟩⟩⟩
  · have hcount : s.cfg.pageCountOk = false := by
      simpa [Config.pageCountOk] using hpages
    simp [step, blockStep, hcount]
  · rw [step_app_eq hok hidle hin]
    exact if_neg (Nat.not_lt.mpr hp)
  · have hrange : ¬(0 ≤ v ∧ v ≤ 65535) := by omega
    rcases hin with hin | hin
    · rw [step_app_eq hok hidle hin]
      exact if_neg hrange
    · rw [step_app_eq hok hidle hin]
      exact if_neg hrange
  · rw [step_app_eq hok hidle hin]
    exact if_neg (by omega)
  · rw [step_app_eq hok hidle hin]
    rfl

end Sys2Proof.Machine
end

section
/-! SUPPORT. Progress: every admitted input is served, and every exchange brings a transaction nearer to its end
(40_commands.md R117, R118; 60_exceptions.md R207). -/

namespace Sys2Proof.Machine

section

variable {s : State}

/-! ### Every admitted input is served -/

theorem execApp_served {op : AppOp} (hpos : 0 < s.cfg.pageCount) (hop : op.admitted s.cfg.pageCount = true) :
    ∃ t, execApp op s = .next t := by
  cases op with
  | setTemperatureReal x =>
    cases x with
    | rational q => exact ⟨_, execApp_setTemperatureReal q hpos⟩
    | notRational => cases hop
  | setTemperatureInt n => exact ⟨_, execApp_setTemperatureInt n hpos⟩
  | getTemperature => exact ⟨_, execApp_getTemperature hpos⟩
  | setVADVoltage v => exact ⟨_, execApp_setVADVoltage (by simpa [AppOp.admitted] using hop)⟩
  | setVDDVoltage v => exact ⟨_, execApp_setVDDVoltage (by simpa [AppOp.admitted] using hop)⟩
  | getVADVoltage => exact ⟨_, rfl⟩
  | getVDDVoltage => exact ⟨_, rfl⟩
  | setCurrent i => exact ⟨_, execApp_setCurrent hpos (by simpa [AppOp.admitted] using hop)⟩
  | getCurrent => exact ⟨_, execApp_getCurrent hpos⟩
  | readRange pos len =>
    simp only [execApp, readRange]
    split <;> exact ⟨_, rfl⟩
  | writeRange pos bytes =>
    simp only [execApp, writeRange]
    split <;> exact ⟨_, rfl⟩
  | checksumOf p => exact ⟨_, execApp_checksumOf (by simpa [AppOp.admitted] using hop)⟩

theorem step_cmd_served {a : RecvAnswer} {rest : List Input} (hok : s.cfg.ok = true) (hphase : s.phase = .cmd)
    (hin : s.inputs = .recv a :: rest) : ∃ t, step s = .next t := by
  cases a with
  | fail => exact ⟨_, step_of_fetchFail hok hin (.inl hphase)⟩
  | byte b =>
    cases hsel : decodeCommand b with
    | paged c => exact ⟨_, step_cmd_of_paged hok hphase hin hsel⟩
    | complete i =>
      rw [step_cmd_of_complete hok hphase hin hsel]
      rcases decodeCommand_complete hsel with rfl | rfl | rfl
      · exact ⟨_, exec_convt_of_cmd hok hphase⟩
      · exact ⟨_, exec_convv_of_cmd hok hphase⟩
      · exact ⟨_, exec_cmd_of_cmd b hphase⟩

theorem step_idx_served {c : PagedCommand} {a : RecvAnswer} {rest : List Input} (hok : s.cfg.ok = true)
    (hphase : s.phase = .idx c) (hin : s.inputs = .recv a :: rest) : ∃ t, step s = .next t := by
  cases a with
  | fail => exact ⟨_, step_of_fetchFail hok hin (.inr ⟨c, hphase⟩)⟩
  | byte p => exact ⟨_, (step_idx_of_byte hok hphase hin).trans (selectPage_eq p _)⟩

theorem step_wr_served {p : Byte} {k : Fin 8} {a : RecvAnswer} {rest : List Input} (hwf : s.wf = true)
    (hphase : s.phase = .wr p k) (hin : s.inputs = .recv a :: rest) : ∃ t, step s = .next t := by
  have hpage := State.page_lt_of_wf_wr hwf hphase
  rw [step_wr_eq_exec (State.cfg_ok_of_wf hwf) hphase hin]
  cases a with
  | fail => exact ⟨_, exec_wrsp_fail hpage hphase hin⟩
  | byte b =>
    by_cases hk : k.val < 7
    · exact ⟨_, exec_wrsp_byte_of_lt (j := ⟨k.val + 1, by omega⟩) hpage hphase hin rfl⟩
    · exact ⟨_, exec_wrsp_byte_last hpage hphase hin (by omega)⟩

theorem step_rd_served {p : Byte} {k : Fin 9} {a : SendAnswer} {rest : List Input} (hwf : s.wf = true)
    (hphase : s.phase = .rd p k) (hin : s.inputs = .send a :: rest) : ∃ t, step s = .next t := by
  have hpage := State.page_lt_of_wf_rd hwf hphase
  rw [step_rd_eq_exec (State.cfg_ok_of_wf hwf) hphase hin]
  cases a with
  | ok => exact ⟨_, exec_rdsp_ok hpage hphase hin⟩
  | fail => exact ⟨_, exec_rdsp_fail hpage hphase hin⟩

/-- In a state of the right shape an exchange the phase asks for is always served. -/
theorem step_served_of_asked {inp : Input} {rest : List Input} (hwf : s.wf = true) (hin : s.inputs = inp :: rest)
    (hasks : s.phase.asksFor inp = true) : ∃ t, step s = .next t := by
  have hok := State.cfg_ok_of_wf hwf
  cases inp with
  | start | app op => cases hphase : s.phase <;> simp [Phase.asksFor, hphase] at hasks
  | recv a =>
    cases hphase : s.phase with
    | cmd => exact step_cmd_served hok hphase hin
    | idx c => exact step_idx_served hok hphase hin
    | wr p k => exact step_wr_served hwf hphase hin
    | idle | rd p k => simp [Phase.asksFor, hphase] at hasks
  | send a =>
    cases hphase : s.phase with
    | rd p k => exact step_rd_served hwf hphase hin
    | idle | cmd | idx c | wr p k => simp [Phase.asksFor, hphase] at hasks

end

/-- Settles O10: an act pending is one of the two calls the hypotheses let through, an exchange asked for, or an answer
that is dropped. -/
theorem everyAdmittedInputIsServed : Obligations.EveryAdmittedInputIsServed := by
  intro s hwf hstart happ
  have hok := State.cfg_ok_of_wf hwf
  cases hin : s.inputs with
  | nil => exact ⟨s, step_of_no_inputs hok hin⟩
  | cons inp rest =>
    by_cases hasks : s.phase.asksFor inp = true
    · exact step_served_of_asked hwf hin hasks
    cases inp with
    | start => exact ⟨_, step_start_of_idle hok (hstart rest hin) hin⟩
    | app op =>
      obtain ⟨hphase, hop⟩ := happ op rest hin
      rw [step_app_of_idle hok hphase hin]
      exact execApp_served (pageCount_pos_of_ok hok) hop
    | recv a | send a => exact ⟨_, step_of_unasked hok hin rfl nofun (by simpa using hasks)⟩

section

variable {s t : State}

/-! ### Transactions end -/

/-- Every row of R117 that takes an exchange the phase asks for leaves fewer of them. -/
theorem Move.exchangesLeft_lt {inp : Input} {rest : List Input} (h : Move s t) (hin : s.inputs = inp :: rest)
    (hasks : s.phase.asksFor inp = true) : t.phase.exchangesLeft < s.phase.exchangesLeft := by
  cases h with
  | wait hi => simp [hi] at hin
  | unasked inp' _ hi _ _ hno =>
    rw [hi] at hin
    cases hin
    simp [hno] at hasks
  | start _ _ hp | app _ _ _ _ hp => simp [hp, Phase.asksFor] at hasks
  | fetchFail _ _ hp =>
    rcases hp with hp | ⟨c, hp⟩
    · simp [hp, Phase.exchangesLeft]
    · cases c <;> simp [hp, Phase.exchangesLeft]
  | paged _ c _ _ hp => cases c <;> simp [hp, Phase.exchangesLeft]
  | badIndex c _ _ _ hp => cases c <;> simp [hp, Phase.exchangesLeft]
  | inert c _ _ _ hp => cases c <;> simp [hp, Phase.exchangesLeft]
  | convt _ _ _ hp | convv _ _ _ hp | unrecognised _ _ _ hp | beginRead _ _ _ hp | beginWrite _ _ _ hp =>
    simp [hp, Phase.exchangesLeft]
  | sendOk p k _ _ hp =>
    rw [State.setPhase_phase, nextSendPhase, hp]
    split <;> simp only [Phase.exchangesLeft] <;> omega
  | sendFail _ k _ _ hp | store _ k _ _ _ hp | storeLast _ k _ _ _ hp | dataFail _ k _ _ hp =>
    simp only [State.setPhase_phase, State.endTransaction_phase, hp, Phase.exchangesLeft]
    omega

/-- With no exchange left a transaction is over. -/
theorem Phase.eq_idle_of_exchangesLeft {ph : Phase} (h : ph.exchangesLeft = 0) : ph = .idle := by
  cases ph with
  | idle => rfl
  | cmd => cases h
  | idx c => cases c <;> cases h
  | rd p k | wr p k =>
    simp only [Phase.exchangesLeft] at h
    omega

/-- A driven run gives each step the answer its phase asks for. -/
theorem State.driven_succ (r : Nat → RecvAnswer) (a : Nat → SendAnswer) (n : Nat) (hbusy : s.phase ≠ .idle) :
    ∃ inp, s.phase.asksFor inp = true ∧
      ∀ t, step { s with inputs := [inp] } = .next t → s.driven r a (n + 1) = t.driven r a n := by
  cases hphase : s.phase with
  | idle => exact absurd hphase hbusy
  | rd p k => exact ⟨.send (a n), rfl, fun t ht => by simp only [State.driven, hphase, ht]⟩
  | cmd | idx c | wr p k => exact ⟨.recv (r n), rfl, fun t ht => by simp only [State.driven, hphase, ht]⟩

/-- A driven run with fuel for the exchanges left reaches `IDLE`: the measure is `Phase.exchangesLeft`. -/
theorem State.driven_reaches_idle (r : Nat → RecvAnswer) (a : Nat → SendAnswer) (n : Nat) (hwf : s.wf = true)
    (hleft : s.phase.exchangesLeft ≤ n) : ∃ t, s.driven r a n = .next t ∧ t.phase = .idle := by
  induction n generalizing s with
  | zero => exact ⟨s, rfl, Phase.eq_idle_of_exchangesLeft (Nat.le_zero.mp hleft)⟩
  | succ n ih =>
    by_cases hidle : s.phase = .idle
    · exact ⟨s, by simp only [State.driven, hidle], hidle⟩
    · obtain ⟨inp, hasks, hdriven⟩ := State.driven_succ r a n hidle
      obtain ⟨t, ht⟩ := step_served_of_asked (s := { s with inputs := [inp] }) hwf rfl hasks
      obtain ⟨-, hmove⟩ := step_cases ht
      have hless := hmove.exchangesLeft_lt rfl hasks
      obtain ⟨u, hrun, hend⟩ := ih (hmove.keeps_wf hwf) (by simp only at hless; omega)
      exact ⟨u, (hdriven t ht).trans hrun, hend⟩

end

/-- Settles O48: in `CMD` at most 11 exchanges are left. -/
theorem transactionsEndWithinElevenExchanges : Obligations.TransactionsEndWithinElevenExchanges := by
  intro r a s hwf hphase
  exact State.driven_reaches_idle r a 11 hwf (by simp [hphase, Phase.exchangesLeft])

end Sys2Proof.Machine
end

section
/-! SUPPORT. The quantity codec as arithmetic: what the encoders store and the decoders read, as numbers
(42_quantity_codec.md R160 to R173). -/

namespace Sys2Proof.Machine

section

/-! ### Numbers in bytes and registers (00_scope.md R10, R11) -/

/-- Two fields side by side are the sum of the upper one shifted and the lower one. -/
theorem toNat_append_eq_add {m n : Nat} (x : BitVec m) (y : BitVec n) :
    (x ++ y).toNat = x.toNat * 2 ^ n + y.toNat := by
  rw [BitVec.toNat_append, ← Nat.shiftLeft_add_eq_or_of_lt y.isLt, Nat.shiftLeft_eq]

theorem toNat_lowByte (h : Half) : (lowByte h).toNat = h.toNat % 256 := by
  rw [lowByte_eq_ofNat, BitVec.toNat_ofNat]

theorem toNat_highByte (h : Half) : (highByte h).toNat = h.toNat / 256 := by
  have hlt := h.isLt
  rw [highByte_eq_ofNat, BitVec.toNat_ofNat]
  omega

theorem toNat_joinBytes (hi lo : Byte) : (joinBytes hi lo).toNat = hi.toNat * 256 + lo.toNat :=
  toNat_append_eq_add hi lo

theorem joinBytes_highByte_lowByte (h : Half) : joinBytes (highByte h) (lowByte h) = h := by
  apply BitVec.eq_of_toNat_eq
  rw [toNat_joinBytes, toNat_highByte, toNat_lowByte]
  omega

/-- A 16-bit number read as signed has the sign of its more significant byte. -/
theorem s16_joinBytes (hi lo : Byte) : s16 (joinBytes hi lo) = hi.toInt * 256 + lo.toNat := by
  have hhi := hi.isLt
  have hlo := lo.isLt
  rw [s16, BitVec.toInt_eq_toNat_cond, BitVec.toInt_eq_toNat_cond, toNat_joinBytes]
  split_ifs <;> omega

theorem toNat_bits16 (v : Int) : (bits16 v).toNat = (v % 65536).toNat := by
  simp [bits16, BitVec.toNat_ofInt]

theorem lowByte_bits16 (v : Int) : lowByte (bits16 v) = BitVec.ofInt 8 v := by
  apply BitVec.eq_of_toNat_eq
  rw [toNat_lowByte, toNat_bits16, BitVec.toNat_ofInt]
  omega

theorem highByte_bits16 (v : Int) : highByte (bits16 v) = BitVec.ofInt 8 (v / 256) := by
  apply BitVec.eq_of_toNat_eq
  rw [toNat_highByte, toNat_bits16, BitVec.toNat_ofInt]
  omega

/-- An integer that fits a signed byte is read back as it is. -/
theorem toInt_ofInt_byte {m : Int} (hlo : -128 ≤ m) (hhi : m ≤ 127) : (BitVec.ofInt 8 m).toInt = m := by
  rw [BitVec.toInt_ofInt]
  exact Int.bmod_eq_of_le (by omega) (by omega)

/-! ### Rounding toward zero -/

theorem truncRat_of_nonneg {x : Rat} (hx : 0 ≤ x) : truncRat x = ⌊x⌋ := by
  rw [truncRat, Int.tdiv_eq_ediv_of_nonneg (Rat.num_nonneg.mpr hx), Rat.floor_def']

theorem truncRat_of_nonpos {x : Rat} (hx : x ≤ 0) : truncRat x = ⌈x⌉ := by
  have hneg : truncRat (-x) = -truncRat x := by
    simp [truncRat, Int.neg_tdiv]
  rw [← neg_inj, ← hneg, truncRat_of_nonneg (by linarith), Int.floor_neg]

theorem truncRat_intCast (m : Int) : truncRat m = m := by
  simp [truncRat]

/-- Rounding toward zero does not leave an interval with integer ends. -/
theorem truncRat_mem {x : Rat} {lo hi : Int} (hlo : lo ≤ x) (hhi : x ≤ hi) : lo ≤ truncRat x ∧ truncRat x ≤ hi := by
  rcases le_total 0 x with hx | hx
  · rw [truncRat_of_nonneg hx]
    exact ⟨Int.le_floor.mpr hlo, by exact_mod_cast (Int.floor_le x).trans hhi⟩
  · rw [truncRat_of_nonpos hx]
    exact ⟨by exact_mod_cast hlo.trans (Int.le_ceil x), Int.ceil_le.mpr hhi⟩

/-! ### Temperature -/

/-- The number `encTempReal` stores: the clamped operand in 1/256 degrees, rounded toward zero (R160). -/
def fixedTemp (q : Rat) : Int := truncRat (clampRat q (-55) 125 * 256)

theorem encTempReal_eq (mask : Byte) (q : Rat) :
    encTempReal mask q = (BitVec.ofInt 8 (fixedTemp q) &&& mask, BitVec.ofInt 8 (fixedTemp q / 256)) := by
  rw [← lowByte_bits16, ← highByte_bits16]
  rfl

theorem fixedTemp_eq (q : Rat) :
    fixedTemp q = if 0 ≤ q then ⌊min q 125 * 256⌋ else ⌈max q (-55) * 256⌉ := by
  unfold fixedTemp clampRat
  split_ifs with hq
  · rw [max_eq_left (by linarith), truncRat_of_nonneg (by positivity)]
  · have hneg : max q (-55) ≤ 0 := max_le (by linarith) (by norm_num)
    rw [min_eq_left (by linarith), truncRat_of_nonpos (by linarith)]

theorem fixedTemp_mem (q : Rat) : -14080 ≤ fixedTemp q ∧ fixedTemp q ≤ 32000 := by
  have hlo : -55 ≤ clampRat q (-55) 125 := le_min (le_max_right _ _) (by norm_num)
  have hhi : clampRat q (-55) 125 ≤ 125 := min_le_right _ _
  exact truncRat_mem (by push_cast; linarith) (by push_cast; linarith)

theorem clampInt_mem (n : Int) : -55 ≤ clampInt n (-55) 125 ∧ clampInt n (-55) 125 ≤ 125 := by
  unfold clampInt
  omega

theorem fixedTemp_intCast (n : Int) : fixedTemp n = clampInt n (-55) 125 * 256 := by
  have hclamp : clampRat n (-55) 125 = (clampInt n (-55) 125 : Int) := by
    simp [clampRat, clampInt]
  rw [fixedTemp, hclamp, ← truncRat_intCast (clampInt n (-55) 125 * 256)]
  push_cast
  rfl

/-! ### Voltage -/

theorem toNat_encVolt (v : Half) : (encVolt v).toNat = v.toNat % 1024 := by
  simp only [encVolt, toNat_append_eq_add, BitVec.extractLsb'_toNat, Nat.shiftRight_eq_div_pow]
  have hzero : (0b000000#6 : BitVec 6).toNat = 0 := rfl
  rw [hzero]
  omega

theorem toNat_decVolt (r : Half) : (decVolt r).toNat = r.toNat % 1024 := by
  rw [decVolt, joinBytes_highByte_lowByte, BitVec.toNat_setWidth, BitVec.toNat_and]
  exact congrArg (· % 2 ^ 10) (Nat.and_two_pow_sub_one_eq_mod r.toNat 10) |>.trans (Nat.mod_mod _ _)

/-- A voltage of the port's width is stored as its low ten bits (R164). -/
theorem encVolt_bits16 {v : Int} (hlo : 0 ≤ v) (hhi : v ≤ 65535) :
    encVolt (bits16 v) = BitVec.ofInt 16 (v % 1024) := by
  apply BitVec.eq_of_toNat_eq
  rw [toNat_encVolt, toNat_bits16, BitVec.toNat_ofInt]
  omega

/-! ### Current -/

theorem toNat_encCurrent_low (i : Int) : (encCurrent i).1.toNat = (i % 256).toNat := by
  change (lowByte (bits16 i)).toNat = _
  rw [lowByte_bits16, BitVec.toNat_ofInt]
  rfl

theorem toNat_encCurrent_high (i : Int) :
    (encCurrent i).2.toNat = (i / 256 % 4).toNat + (if i < 0 then 252 else 0) := by
  have hfield : ((bits16 i).extractLsb' 8 2).toNat = (i / 256 % 4).toNat := by
    rw [BitVec.extractLsb'_toNat, toNat_bits16, Nat.shiftRight_eq_div_pow]
    omega
  simp only [encCurrent, toNat_append_eq_add, hfield]
  split_ifs
  · change 63 * 4 + _ = _
    omega
  · change 0 * 4 + _ = _
    omega

theorem decCurrent_encCurrent {i : Int} (hlo : -32768 ≤ i) (hhi : i ≤ 32767) :
    decCurrent (encCurrent i).1 (encCurrent i).2 = if 0 ≤ i then i % 1024 else i % 1024 - 1024 := by
  rw [decCurrent, s16_joinBytes, BitVec.toInt_eq_toNat_cond, toNat_encCurrent_low, toNat_encCurrent_high]
  split_ifs <;> omega

end

/-- Settles O35: the fixed-point number of a whole degree is that degree times 256. -/
theorem integerAndRealTemperatureAgree : Obligations.IntegerAndRealTemperatureAgree := by
  intro n
  have hlow : BitVec.ofInt 8 (clampInt n (-55) 125 * 256) = 0x00#8 := by
    apply BitVec.eq_of_toNat_eq
    rw [BitVec.toNat_ofInt, BitVec.toNat_ofNat]
    omega
  rw [encTempReal_eq, fixedTemp_intCast, hlow, Int.mul_ediv_cancel _ (by decide)]
  rfl

/-- Settles O37: both directions keep the low ten bits. -/
theorem voltageRoundTripsModulo1024 : Obligations.VoltageRoundTripsModulo1024 := by
  refine ⟨fun v => ?_, fun v hv => ?_, toNat_decVolt⟩
  · rw [toNat_decVolt, toNat_encVolt, Nat.mod_mod]
  · apply BitVec.eq_of_toNat_eq
    rw [toNat_encVolt, Nat.mod_eq_of_lt hv]

/-- Settles O39: the round trip keeps the ten low bits and the sign, which is the operand itself exactly when it fits
eleven bits. -/
theorem currentRoundTripLaw : Obligations.CurrentRoundTripLaw := by
  intro i hlo hhi
  rw [decCurrent_encCurrent hlo hhi]
  refine ⟨rfl, ?_⟩
  split_ifs <;> omega

end Sys2Proof.Machine
end

section
/-! SUPPORT. The steps of the application port: what a measurement stored on page 0 leaves, and the ranges of the paged
store (42_quantity_codec.md section 1 to 3, 41_memory_store.md R143, R144). -/

namespace Sys2Proof.Machine

section

variable {s : State}

/-! ### Measurements -/

theorem State.readByte_storeMeasurement (a : Nat) (bytes : Byte × Byte) (x : Nat) :
    (s.storeMeasurement a bytes).readByte x =
      if x = a then bytes.1 else if x = a + 1 then bytes.2 else s.readByte x := by
  rw [State.storeMeasurement, State.recompute_readByte, State.readByte_writeByte, State.readByte_writeByte]
  by_cases ha : x = a
  · simp [ha]
  · simp [ha]

/-- A setter that stores a measurement: its two bytes, the checksum of page 0 over them, its result, and nothing
else. -/
theorem step_storeMeasurement {op : AppOp} {a : Nat} {bytes : Byte × Byte} {rest : List Input} (hwf : s.wf = true)
    (hphase : s.phase = .idle) (hin : s.inputs = .app op :: rest)
    (hexec : execApp op { s with inputs := rest } =
      .next ((State.storeMeasurement { s with inputs := rest } a bytes).answer op .done)) :
    ∃ t, step s = .next t ∧ t.readByte a = bytes.1 ∧ t.readByte (a + 1) = bytes.2 ∧
      (∀ x, x ≠ a → x ≠ a + 1 → t.readByte x = s.readByte x) ∧
      t.checksum 0 = crc8Fn t.cfg (t.pageBytes 0) ∧ (∀ p, p ≠ 0 → t.checksum p = s.checksum p) ∧
      t.vadReg = s.vadReg ∧ t.vddReg = s.vddReg ∧ t.cfg = s.cfg ∧ t.phase = .idle ∧ t.inputs = rest ∧
      t.trace = s.trace ++ [.app op .done] := by
  have hlen := State.crc_length_of_wf hwf
  refine ⟨_, (step_app_eq (State.cfg_ok_of_wf hwf) hphase hin).trans hexec, ?_, ?_, fun x ha ha' => ?_, ?_,
    fun p hp => ?_, rfl, rfl, rfl, hphase, rfl, rfl⟩
  · simp [State.readByte_storeMeasurement]
  · simp [State.readByte_storeMeasurement]
  · rw [State.answer_readByte, State.readByte_storeMeasurement, if_neg ha, if_neg ha']
    rfl
  · exact State.checksum_recompute_self (by simp [hlen])
  · exact (State.checksum_recompute_of_ne hp).trans rfl

end

/-- Settles O32: the bytes are those of `fixedTemp`, which is the number `v` of the statement. -/
theorem setTemperatureRealStoresClampedFixedPoint : Obligations.SetTemperatureRealStoresClampedFixedPoint := by
  intro s q v rest hwf hphase hin hv
  obtain ⟨t, hstep, hlow, hhigh, hrest⟩ := step_storeMeasurement hwf hphase hin
    (execApp_setTemperatureReal q (pageCount_pos_of_ok (State.cfg_ok_of_wf hwf)))
  rw [encTempReal_eq, fixedTemp_eq, ← hv] at hlow hhigh
  exact ⟨t, hstep, hlow, hhigh, hrest⟩

/-- Settles O33: the clamped degrees fit a signed byte. -/
theorem setTemperatureIntStoresWholeDegrees : Obligations.SetTemperatureIntStoresWholeDegrees := by
  intro s n rest hwf hphase hin
  obtain ⟨t, hstep, hlow, hhigh, hrest⟩ := step_storeMeasurement hwf hphase hin
    (execApp_setTemperatureInt n (pageCount_pos_of_ok (State.cfg_ok_of_wf hwf)))
  refine ⟨t, hstep, hlow, ?_, hrest⟩
  have hclamp := clampInt_mem n
  rw [hhigh, encTempInt, toInt_ofInt_byte (by omega) (by omega)]
  unfold clampInt
  split_ifs <;> omega

/-- Settles O38: the bytes are those of `encCurrent`, as numbers. -/
theorem setCurrentStoresElevenBits : Obligations.SetCurrentStoresElevenBits := by
  intro s i rest hwf hphase hlo hhi hin
  obtain ⟨t, hstep, hlow, hhigh, hrest⟩ := step_storeMeasurement hwf hphase hin
    (execApp_setCurrent (pageCount_pos_of_ok (State.cfg_ok_of_wf hwf)) ⟨hlo, hhi⟩)
  exact ⟨t, hstep, by rw [hlow, toNat_encCurrent_low], by rw [hhigh, toNat_encCurrent_high], hrest⟩

section

variable {s : State}

/-! ### The temperature register -/

theorem State.temperature16_storeMeasurement (bytes : Byte × Byte) :
    (s.storeMeasurement 1 bytes).temperature16 = bytes.2.toInt * 256 + bytes.1.toNat := by
  rw [State.temperature16, State.readHalf, s16_joinBytes]
  simp [State.readByte_storeMeasurement]

theorem State.temperature16_answer (op : AppOp) (r : AppResult) :
    (s.answer op r).temperature16 = s.temperature16 := rfl

/-- A call of the application port is answered in `IDLE` only, by its operation (60_exceptions.md R206). -/
theorem execApp_of_step {op : AppOp} {t : State} {rest : List Input} (hin : s.inputs = .app op :: rest)
    (hstep : step s = .next t) : s.cfg.ok = true ∧ execApp op s.takeInput = .next t := by
  obtain ⟨hok, -⟩ := step_cases hstep
  by_cases hidle : s.phase = .idle
  · exact ⟨hok, (step_app_of_idle hok hidle hin).symm.trans hstep⟩
  · rw [step_app_of_busy hok hidle hin] at hstep
    cases hstep

/-- Both encoders stay in the range of the device, -55 to 125 degrees in units of 1/256 (R163). -/
theorem encTempInt_mem (n : Int) :
    -14080 ≤ (encTempInt n).2.toInt * 256 + (encTempInt n).1.toNat ∧
      (encTempInt n).2.toInt * 256 + (encTempInt n).1.toNat ≤ 32000 := by
  have hclamp := clampInt_mem n
  have hlow : (encTempInt n).1.toNat = 0 := rfl
  rw [hlow, encTempInt, toInt_ofInt_byte (by omega) (by omega)]
  omega

/-- The mask takes bits of the fraction away, so the number read is between the whole degrees and the number stored. -/
theorem encTempReal_mem (mask : Byte) (q : Rat) :
    -14080 ≤ (encTempReal mask q).2.toInt * 256 + (encTempReal mask q).1.toNat ∧
      (encTempReal mask q).2.toInt * 256 + (encTempReal mask q).1.toNat ≤ 32000 := by
  have hfixed := fixedTemp_mem q
  have hlow : (BitVec.ofInt 8 (fixedTemp q) &&& mask).toNat ≤ (fixedTemp q % 256).toNat := by
    rw [BitVec.toNat_and, BitVec.toNat_ofInt]
    exact Nat.and_le_left
  rw [encTempReal_eq]
  simp only
  rw [toInt_ofInt_byte (by omega) (by omega)]
  omega

end

/-- Settles O34: a step that runs a setter stores the bytes of its encoder and no others. -/
theorem settersKeepTemperatureInRange : Obligations.SettersKeepTemperatureInRange := by
  rintro s t rest (⟨n, hin⟩ | ⟨x, hin⟩) hstep <;> obtain ⟨hok, hexec⟩ := execApp_of_step hin hstep
  · rw [execApp_setTemperatureInt (s := s.takeInput) n (pageCount_pos_of_ok hok)] at hexec
    cases hexec
    rw [State.temperature16_answer, State.temperature16_storeMeasurement]
    exact encTempInt_mem n
  · cases x with
    | rational q =>
      rw [execApp_setTemperatureReal (s := s.takeInput) q (pageCount_pos_of_ok hok)] at hexec
      cases hexec
      rw [State.temperature16_answer, State.temperature16_storeMeasurement]
      exact encTempReal_mem _ q
    | notRational => cases hexec

/-- Settles O36: the register becomes the encoded operand, and the call is taken and answered. -/
theorem voltageSettersWriteTheirRegisterOnly : Obligations.VoltageSettersWriteTheirRegisterOnly := by
  intro s v rest hok hphase hlo hhi
  refine ⟨fun hin => ?_, fun hin => ?_⟩
  · rw [step_app_eq hok hphase hin, execApp_setVADVoltage ⟨hlo, hhi⟩, encVolt_bits16 hlo hhi]
    rfl
  · rw [step_app_eq hok hphase hin, execApp_setVDDVoltage ⟨hlo, hhi⟩, encVolt_bits16 hlo hhi]
    rfl

/-- Settles O40: each getter answers the number its decoder gives, and does nothing else. -/
theorem gettersReadAndChangeNothing : Obligations.GettersReadAndChangeNothing := by
  intro s rest hok hphase
  have hpos := pageCount_pos_of_ok hok
  have hvolt (r : Half) : ((decVolt r).toNat : Int) = (r.toNat : Int) % 1024 := by
    rw [toNat_decVolt]
    push_cast
    rfl
  refine ⟨fun hin => ?_, fun hin => ?_, fun hin => ?_, fun hin => ?_⟩ <;> rw [step_app_eq hok hphase hin]
  · exact execApp_getTemperature hpos
  · rw [← hvolt]
    rfl
  · rw [← hvolt]
    rfl
  · rw [← s16_joinBytes]
    exact execApp_getCurrent hpos

section

variable {s : State}

/-! ### The paged store -/

theorem memSize_eq (c : Config) : c.memSize = 8 * c.pageCount := Nat.mul_comm _ _

theorem State.fitting_eq_iff {pos len : Nat} (hpos : pos < s.cfg.memSize) :
    s.fitting pos len = len ↔ pos + len ≤ s.cfg.memSize := by
  unfold State.fitting
  omega

theorem State.readBytes_getElem? {a n k : Nat} (hk : k < n) : (s.readBytes a n)[k]? = some (s.readByte (a + k)) := by
  simp [State.readBytes, hk]

theorem readRange_of_lt {pos len : Nat} (hpos : pos < s.cfg.memSize) :
    readRange pos len s = .next (s.answer (.readRange pos len)
      (.bytes (s.readBytes pos (s.fitting pos len)) (s.fitting pos len == len))) :=
  if_neg (Nat.not_le.mpr hpos)

/-- `writeRange` from inside the scratchpad, but for its answer: the bytes that fit, then the pages they touch. -/
def State.storeFitting (s : State) (pos : Nat) (bytes : List Byte) : State :=
  (s.writeBytes pos (bytes.take (s.fitting pos bytes.length))).recomputeTouched pos (s.fitting pos bytes.length)

theorem writeRange_eq {pos : Nat} (bytes : List Byte) (hpos : pos < s.cfg.memSize) :
    writeRange pos bytes s = .next ((s.storeFitting pos bytes).answer (.writeRange pos bytes)
      (.written (s.fitting pos bytes.length == bytes.length))) :=
  writeRange_of_lt bytes hpos

theorem State.storeFitting_frame (s : State) (pos : Nat) (bytes : List Byte) :
    ∃ mem crc, s.storeFitting pos bytes = { s with mem := mem, crc := crc } := by
  obtain ⟨mem, hwrite⟩ := State.writeBytes_frame (s := s) (bytes.take (s.fitting pos bytes.length)) pos
  obtain ⟨crc, htouch, -⟩ := State.recomputeTouched_frame { s with mem := mem } pos (s.fitting pos bytes.length)
  exact ⟨mem, crc, by rw [State.storeFitting, hwrite, htouch]⟩

theorem State.readByte_storeFitting (pos : Nat) (bytes : List Byte) (x : Nat) :
    (s.storeFitting pos bytes).readByte x =
      if pos ≤ x ∧ x < pos + s.fitting pos bytes.length then bytes.getD (x - pos) 0#8 else s.readByte x := by
  rw [State.storeFitting, State.recomputeTouched_readByte,
    State.readByte_writeBytes_take (State.fitting_le s pos bytes.length)]

/-- The checksum of a page the bytes touch is recomputed over the new bytes, every other one is left (R144). -/
theorem State.checksum_storeFitting {pos : Nat} {bytes : List Byte} (hlen : s.cfg.pageCount ≤ s.crc.length)
    (hpos : pos < s.cfg.memSize) (q : Nat) :
    (touches pos (s.fitting pos bytes.length) q → (s.storeFitting pos bytes).fresh q) ∧
      (¬touches pos (s.fitting pos bytes.length) q → (s.storeFitting pos bytes).checksum q = s.checksum q) := by
  have hend := State.fitting_end bytes.length hpos.le
  rw [memSize_eq] at hend
  have hslots : pos + s.fitting pos bytes.length ≤
      8 * (s.writeBytes pos (bytes.take (s.fitting pos bytes.length))).crc.length := by
    rw [State.writeBytes_crc]
    omega
  refine ⟨fun hq => State.fresh_recomputeTouched hslots fun hnot => absurd hq hnot, fun hq => ?_⟩
  exact ((State.checksum_recomputeTouched hslots q).2 hq).trans (State.writeBytes_checksum _ _ _)

theorem touches_of_mem {pos n a : Nat} (hlo : pos ≤ a) (hhi : a < pos + n) : touches pos n (a / 8) := by
  unfold touches
  omega

/-- A page that is touched holds one of the addresses written: the first of the page, or `pos` in its middle. -/
theorem exists_mem_of_touches {pos n q : Nat} (h : touches pos n q) : ∃ a, pos ≤ a ∧ a < pos + n ∧ a / 8 = q := by
  unfold touches at h
  exact ⟨max pos (8 * q), by omega, by omega, by omega⟩

end

/-- Settles O41: the bytes that fit are a read of consecutive addresses. -/
theorem readRangeReturnsTheBytesThatFit : Obligations.ReadRangeReturnsTheBytesThatFit := by
  intro s pos len rest hok hphase hin
  rw [step_app_eq hok hphase hin, ← memSize_eq]
  by_cases hpos : pos < s.cfg.memSize
  · refine ⟨_, readRange_of_lt hpos, fun hout => absurd hout (Nat.not_le.mpr hpos), fun _ =>
      ⟨_, _, rfl, by simp [State.readBytes, State.fitting], fun k hk => ?_, ?_⟩⟩
    · exact State.readBytes_getElem? (by simpa [State.readBytes] using hk)
    · rw [beq_iff_eq]
      exact State.fitting_eq_iff hpos
  · exact ⟨.failed, if_pos (Nat.not_lt.mp hpos), fun _ => rfl, fun hlt => absurd hlt hpos⟩

/-- Settles O42: the next state is `storeFitting` and the answer; the pages touched are those of the bytes that fit. -/
theorem writeRangeWritesTheBytesThatFit : Obligations.WriteRangeWritesTheBytesThatFit := by
  intro s pos bytes rest hwf hphase hin
  have hlen := State.crc_length_of_wf hwf
  have hok := State.cfg_ok_of_wf hwf
  rw [← memSize_eq]
  refine ⟨fun hout => ?_, fun hpos => ?_⟩
  · rw [step_app_eq hok hphase hin]
    exact if_pos hout
  obtain ⟨mem, crc, hframe⟩ := s.takeInput.storeFitting_frame pos bytes
  have hread := State.readByte_storeFitting (s := s.takeInput) pos bytes
  have hslot := State.checksum_storeFitting (s := s.takeInput) (bytes := bytes) (by simp [hlen]) hpos
  have hfits : s.takeInput.fitting pos bytes.length = min bytes.length (s.cfg.memSize - pos) := rfl
  refine ⟨_, s.takeInput.fitting pos bytes.length == bytes.length,
    (step_app_of_idle hok hphase hin).trans (writeRange_eq bytes hpos), ?_, fun k hend hk => ?_, fun a ha => ?_,
    fun a hlo hhi hend => ?_, fun q hq => ?_, ?_, ?_, ?_, ?_, ?_, ?_⟩
  · rw [beq_iff_eq]
    exact State.fitting_eq_iff hpos
  · rw [State.answer_readByte, hread, if_pos (by omega), Nat.add_sub_cancel_left]
    simp [hk]
  · rw [State.answer_readByte, hread, if_neg (by omega), State.takeInput_readByte]
  · exact (hslot (a / 8)).1 (touches_of_mem hlo (by omega))
  · refine (hslot q).2 fun htouch => ?_
    obtain ⟨a, hlo, hhi, hpage⟩ := exists_mem_of_touches htouch
    exact hq a hlo (by omega) (by omega) hpage
  · rw [State.answer_vadReg, hframe, State.takeInput_vadReg]
  · rw [State.answer_vddReg, hframe, State.takeInput_vddReg]
  · rw [State.answer_cfg, hframe, State.takeInput_cfg]
  · rw [State.answer_phase, hframe, State.takeInput_phase, hphase]
  · rw [State.answer_inputs, hframe, State.takeInput_inputs, hin, List.tail_cons]
  · rw [State.answer_trace, hframe, State.takeInput_trace]

end Sys2Proof.Machine
end

section
/-! SUPPORT. Whole transactions: the run exchange by exchange against the one change of state of
Machine/Transaction.lean (30_encoding.md R83, 40_commands.md R110 to R117). -/

namespace Sys2Proof.Machine

section

variable {s : State}

/-! ### Runs -/

@[simp] theorem State.withPorts_withPorts (ph ph' : Phase) (ins ins' : List Input) (tr tr' : List Event) :
    (s.withPorts ph ins tr).withPorts ph' ins' tr' = s.withPorts ph' ins' tr' := rfl

@[simp] theorem State.recompute_withPorts (p : Nat) (ph : Phase) (ins : List Input) (tr : List Event) :
    (s.withPorts ph ins tr).recompute p = (s.recompute p).withPorts ph ins tr := rfl

@[simp] theorem State.responseBytes_withPorts (p : Byte) (ph : Phase) (ins : List Input) (tr : List Event) :
    (s.withPorts ph ins tr).responseBytes p = s.responseBytes p := rfl

theorem State.run_succ {t : State} {n : Nat} (h : step s = .next t) : s.run (n + 1) = t.run n := by
  simp only [State.run, h]

theorem State.run_one {t : State} (h : step s = .next t) : s.run 1 = .next t :=
  State.run_succ h

/-- `START`, then the exchange of the command byte. -/
theorem State.run_start {rest : List Input} {n : Nat} (hok : s.cfg.ok = true) (hphase : s.phase = .idle)
    (hin : s.inputs = .start :: rest) : s.run (n + 1) = (s.withPorts .cmd rest s.trace).run n := by
  rw [State.run_succ (step_start_of_idle hok hphase hin), State.takeInput_of_inputs hin]
  rfl

/-! ### The send phases -/

/-- The response from byte `k` on. -/
theorem State.drop_responseBytes (p : Byte) (k : Fin 9) :
    (s.responseBytes p).drop k.val = s.responseByte p k :: (s.responseBytes p).drop (k.val + 1) := by
  fin_cases k <;> rfl

/-- `m` sends that succeed and then the last one, of the byte `k + m`: it fails, or it sends the checksum. -/
theorem State.run_sends {p : Byte} {a : SendAnswer} {rest : List Input} (hok : s.cfg.ok = true)
    (hp : p.toNat < s.cfg.pageCount) (m : Nat) (k : Fin 9) (hphase : s.phase = .rd p k) (hm : k.val + m ≤ 8)
    (hlast : a = .fail ∨ k.val + m = 8)
    (hin : s.inputs = (List.replicate m SendAnswer.ok ++ [a]).map .send ++ rest) :
    s.run (m + 1) = .next (s.withPorts .idle rest (s.trace ++
      List.zipWith .send ((s.responseBytes p).drop k.val) (List.replicate m .ok ++ [a]))) := by
  induction m generalizing s k with
  | zero =>
    have hin' : s.inputs = .send a :: rest := hin
    rw [State.drop_responseBytes, List.replicate_zero, List.nil_append, List.zipWith_cons_cons, List.zipWith_nil_right]
    cases a with
    | fail => exact State.run_one ((step_rd_eq_exec hok hphase hin').trans (exec_rdsp_fail hp hphase hin'))
    | ok =>
      obtain rfl : k = 8 := Fin.ext (hlast.resolve_left nofun)
      exact State.run_one ((step_rd_eq_exec hok hphase hin').trans (exec_rdsp_ok hp hphase hin'))
  | succ m ih =>
    have hk : k.val < 8 := by omega
    have hin' : s.inputs = .send .ok :: ((List.replicate m SendAnswer.ok ++ [a]).map .send ++ rest) := hin
    have hstep := (step_rd_eq_exec hok hphase hin').trans (exec_rdsp_ok hp hphase hin')
    rw [nextSendPhase_of_lt (j := ⟨k.val + 1, by omega⟩) hk rfl] at hstep
    rw [State.run_succ hstep, State.drop_responseBytes, List.replicate_succ, List.cons_append, List.zipWith_cons_cons,
      ih (by exact hok) (by exact hp) ⟨k.val + 1, by omega⟩ rfl (by simp only; omega)
        (hlast.imp_right fun h => by simp only; omega) rfl]
    simp

/-- The answers to a read are successes and then the last answer: a failure, or the ninth success. -/
theorem sendAnswers_eq (failAt : Option (Fin 9)) :
    ∃ (m : Nat) (a : SendAnswer), m ≤ 8 ∧ (a = .fail ∨ m = 8) ∧
      sendAnswers failAt = List.replicate m .ok ++ [a] := by
  cases failAt with
  | none => exact ⟨8, .ok, le_rfl, .inr rfl, rfl⟩
  | some k => exact ⟨k.val, .fail, by omega, .inl rfl, rfl⟩

/-! ### The data phase -/

/-- A store of a list of data bytes goes by the scratchpad, not by what the ports hold. -/
theorem State.storeData_withPorts (p : Byte) (k : Nat) (data : List Byte) (ph : Phase) (ins : List Input)
    (tr : List Event) : (s.withPorts ph ins tr).storeData p k data = (s.storeData p k data).withPorts ph ins tr := by
  induction data generalizing s k with
  | nil => rfl
  | cons b bs ih => rw [State.storeData, State.storeFromBus_withPorts, ih, State.storeData]

/-- The answers to the receives of a data phase with `data` to come from offset `k` on: a failure ends a short one. -/
def dataAnswers (k : Nat) (data : List Byte) : List RecvAnswer :=
  byteAnswers data ++ if k + data.length < 8 then [.fail] else []

theorem length_dataAnswers_le (k : Nat) (data : List Byte) : (dataAnswers k data).length ≤ data.length + 1 := by
  simp only [dataAnswers, byteAnswers, List.length_append, List.length_map]
  split_ifs <;> simp

theorem dataAnswers_cons (k : Nat) (b : Byte) (bs : List Byte) :
    dataAnswers k (b :: bs) = .byte b :: dataAnswers (k + 1) bs := by
  have hlen : k + (bs.length + 1) = k + 1 + bs.length := by omega
  simp only [dataAnswers, byteAnswers, List.map_cons, List.cons_append, List.length_cons, hlen]

/-- The data phase from offset `k` on: the bytes are stored in order, the checksum is recomputed at the end. -/
theorem State.run_data {p : Byte} {rest : List Input} (hok : s.cfg.ok = true) (hp : p.toNat < s.cfg.pageCount)
    (data : List Byte) (k : Fin 8) (hphase : s.phase = .wr p k) (hlen : k.val + data.length ≤ 8)
    (hin : s.inputs = (dataAnswers k.val data).map .recv ++ rest) :
    s.run (dataAnswers k.val data).length = .next (((s.storeData p k.val data).recompute p.toNat).withPorts .idle rest
      (s.trace ++ (dataAnswers k.val data).map .recv)) := by
  induction data generalizing s k with
  | nil =>
    have hfail : dataAnswers k.val [] = [.fail] := by
      simp [dataAnswers, byteAnswers]
    rw [hfail] at hin ⊢
    exact State.run_one ((step_wr_eq_exec hok hphase hin).trans (exec_wrsp_fail hp hphase hin))
  | cons b bs ih =>
    rw [dataAnswers_cons] at hin ⊢
    rw [List.length_cons] at hlen
    by_cases hk : k.val < 7
    · have hstep := (step_wr_eq_exec hok hphase hin).trans
        (exec_wrsp_byte_of_lt (j := ⟨k.val + 1, by omega⟩) hp hphase hin rfl)
      rw [List.length_cons, State.run_succ hstep, ih (by simpa using hok) (by simpa using hp) ⟨k.val + 1, by omega⟩ rfl
        (by simp only; omega) rfl]
      simp [State.storeData, State.storeData_withPorts]
    · obtain rfl : bs = [] := List.length_eq_zero_iff.mp (by omega)
      have hlast : dataAnswers (k.val + 1) [] = [] := by
        rw [dataAnswers, List.length_nil, if_neg (by omega)]
        rfl
      rw [hlast] at hin ⊢
      exact State.run_one ((step_wr_eq_exec hok hphase hin).trans (exec_wrsp_byte_last hp hphase hin (by omega)))

/-! ### The receives of the command byte and of the page index -/

theorem step_fetchFail_ports {rest : List Input} (hok : s.cfg.ok = true) (hin : s.inputs = .recv .fail :: rest)
    (hphase : s.phase = .cmd ∨ ∃ c, s.phase = .idx c) :
    step s = .next (s.withPorts .idle rest (s.trace ++ [.recv .fail])) := by
  rw [step_of_fetchFail hok hin hphase, State.received_eq_withPorts hin]
  rfl

/-- The page index leads to the command's next phase when it is valid, and to `IDLE` otherwise. -/
theorem step_idx_ports {c : PagedCommand} {p : Byte} {rest : List Input} (hok : s.cfg.ok = true)
    (hphase : s.phase = .idx c) (hin : s.inputs = .recv (.byte p) :: rest) :
    step s = .next (s.withPorts (if p.toNat < s.cfg.pageCount then phaseAfterIndex c p else .idle) rest
      (s.trace ++ [.recv (.byte p)])) :=
  (step_idx_of_byte hok hphase hin).trans (selectPage_eq p _)

theorem State.run_complete {b : Byte} {i : Instr} {rest : List Input} {t : State} (hok : s.cfg.ok = true)
    (hphase : s.phase = .idle) (hin : s.inputs = .start :: .recv (.byte b) :: rest)
    (hb : decodeCommand b = .complete i)
    (hexec : exec i (s.withPorts .cmd rest (s.trace ++ [.recv (.byte b)])) = .next t) : s.run 2 = .next t := by
  rw [State.run_start hok hphase hin]
  exact State.run_one ((step_cmd_of_complete (s := s.withPorts .cmd _ _) hok rfl rfl hb).trans hexec)

theorem State.run_opcode {c : PagedCommand} {ins : List Input} {n : Nat} (hok : s.cfg.ok = true)
    (hphase : s.phase = .idle) (hin : s.inputs = .start :: .recv (.byte c.opcode) :: ins) :
    s.run (n + 2) = (s.withPorts (.idx c) ins (s.trace ++ [.recv (.byte c.opcode)])).run n := by
  rw [State.run_start hok hphase hin]
  exact State.run_succ (step_cmd_of_paged (s := s.withPorts .cmd _ _) hok rfl rfl (decodeCommand_opcode c))

theorem State.run_index {c : PagedCommand} {p : Byte} {ins : List Input} {n : Nat} (hok : s.cfg.ok = true)
    (hphase : s.phase = .idle) (hin : s.inputs = .start :: .recv (.byte c.opcode) :: .recv (.byte p) :: ins) :
    s.run (n + 3) = (s.withPorts (if p.toNat < s.cfg.pageCount then phaseAfterIndex c p else .idle) ins
      (s.trace ++ [.recv (.byte c.opcode), .recv (.byte p)])).run n := by
  have hshown : s.trace ++ [.recv (.byte c.opcode)] ++ [.recv (.byte p)] =
      s.trace ++ [.recv (.byte c.opcode), .recv (.byte p)] := List.append_assoc _ _ _
  rw [State.run_opcode hok hphase hin, ← hshown]
  exact State.run_succ (step_idx_ports (s := s.withPorts (.idx c) _ _) hok rfl rfl)

/-! ### Every transaction -/

section

variable {rest : List Input}

@[simp] theorem Transaction.after_eq (s : State) (rest : List Input) (t : Transaction) :
    t.after s rest = (t.effect s).withPorts .idle rest (s.trace ++ t.events s) := rfl

theorem run_commandFail (hok : s.cfg.ok = true) (hphase : s.phase = .idle)
    (hin : s.inputs = .start :: Transaction.commandFail.answers s.cfg.pageCount ++ rest) :
    s.run 2 = .next (Transaction.commandFail.after s rest) := by
  rw [State.run_start hok hphase hin]
  exact State.run_one (step_fetchFail_ports (s := s.withPorts .cmd _ _) hok rfl (.inl rfl))

theorem run_indexFail (c : PagedCommand) (hok : s.cfg.ok = true) (hphase : s.phase = .idle)
    (hin : s.inputs = .start :: (Transaction.indexFail c).answers s.cfg.pageCount ++ rest) :
    s.run 3 = .next ((Transaction.indexFail c).after s rest) := by
  have hin' : s.inputs = .start :: .recv (.byte c.opcode) :: .recv .fail :: rest := hin
  rw [State.run_opcode hok hphase hin',
    State.run_one (step_fetchFail_ports (s := s.withPorts (.idx c) _ _) hok rfl (.inr ⟨c, rfl⟩))]
  simp [Transaction.effect, Transaction.events, Transaction.recvAnswers, byteAnswers]

/-- CPSP and RECALL: both branches of the index step lead to `IDLE`. -/
theorem run_inert {c : PagedCommand} {p : Byte} (hok : s.cfg.ok = true) (hphase : s.phase = .idle)
    (hc : phaseAfterIndex c p = .idle)
    (hin : s.inputs = .start :: .recv (.byte c.opcode) :: .recv (.byte p) :: rest) :
    s.run 3 = .next (s.withPorts .idle rest (s.trace ++ [.recv (.byte c.opcode), .recv (.byte p)])) := by
  rw [State.run_index hok hphase hin, hc, ite_self]
  rfl

theorem run_rdsp (p : Byte) (failAt : Option (Fin 9)) (hok : s.cfg.ok = true) (hphase : s.phase = .idle)
    (hin : s.inputs = .start :: (Transaction.rdsp p failAt).answers s.cfg.pageCount ++ rest) :
    s.run (((Transaction.rdsp p failAt).answers s.cfg.pageCount).length + 1) =
      .next ((Transaction.rdsp p failAt).after s rest) := by
  by_cases hp : p.toNat < s.cfg.pageCount
  · obtain ⟨m, a, hm, hlast, hsends⟩ := sendAnswers_eq failAt
    have hanswers : (Transaction.rdsp p failAt).answers s.cfg.pageCount =
        .recv (.byte 0xBE#8) :: .recv (.byte p) :: (List.replicate m SendAnswer.ok ++ [a]).map .send := by
      simp only [Transaction.answers, Transaction.recvAnswers, Transaction.sendAnswers, byteAnswers, if_pos hp, hsends]
      rfl
    rw [hanswers] at hin ⊢
    have hlen : (Input.recv (.byte 0xBE#8) :: .recv (.byte p) ::
        (List.replicate m SendAnswer.ok ++ [a]).map .send).length + 1 = m + 1 + 3 := by simp
    rw [hlen, State.run_index (c := .rdsp) hok hphase hin, if_pos hp,
      State.run_sends (by exact hok) (by exact hp) m 0 rfl (by simpa using hm) (by simpa using hlast) rfl]
    simp [Transaction.effect, Transaction.events, Transaction.recvAnswers, Transaction.sendAnswers, byteAnswers, hp,
      hsends, PagedCommand.opcode]
  · have hanswers : (Transaction.rdsp p failAt).answers s.cfg.pageCount = [.recv (.byte 0xBE#8), .recv (.byte p)] := by
      simp only [Transaction.answers, Transaction.recvAnswers, Transaction.sendAnswers, byteAnswers, if_neg hp]
      rfl
    rw [hanswers] at hin ⊢
    refine (State.run_index (c := .rdsp) (n := 0) hok hphase hin).trans ?_
    rw [if_neg hp]
    simp [State.run, Transaction.effect, Transaction.events, Transaction.recvAnswers, Transaction.sendAnswers,
      byteAnswers, hp, PagedCommand.opcode]

theorem run_wrsp (p : Byte) (data : List Byte) (hok : s.cfg.ok = true) (hphase : s.phase = .idle)
    (hlen : data.length ≤ 8)
    (hin : s.inputs = .start :: (Transaction.wrsp p data).answers s.cfg.pageCount ++ rest) :
    s.run (((Transaction.wrsp p data).answers s.cfg.pageCount).length + 1) =
      .next ((Transaction.wrsp p data).after s rest) := by
  by_cases hp : p.toNat < s.cfg.pageCount
  · have hanswers : (Transaction.wrsp p data).answers s.cfg.pageCount =
        .recv (.byte 0x4E#8) :: .recv (.byte p) :: (dataAnswers 0 data).map .recv := by
      simp [Transaction.answers, Transaction.recvAnswers, Transaction.sendAnswers, byteAnswers, if_pos hp, dataAnswers]
    rw [hanswers] at hin ⊢
    have hfuel : (Input.recv (.byte 0x4E#8) :: .recv (.byte p) :: (dataAnswers 0 data).map .recv).length + 1 =
        (dataAnswers 0 data).length + 3 := by simp
    rw [hfuel, State.run_index (c := .wrsp) hok hphase hin, if_pos hp]
    refine (State.run_data (s := s.withPorts (.wr p 0) _ _) hok hp data 0 rfl (by simpa using hlen) rfl).trans ?_
    simp [Transaction.effect, Transaction.events, Transaction.recvAnswers, byteAnswers, hp, dataAnswers,
      State.storeData_withPorts, PagedCommand.opcode]
  · have hanswers : (Transaction.wrsp p data).answers s.cfg.pageCount = [.recv (.byte 0x4E#8), .recv (.byte p)] := by
      simp [Transaction.answers, Transaction.recvAnswers, Transaction.sendAnswers, byteAnswers, if_neg hp]
    rw [hanswers] at hin ⊢
    refine (State.run_index (c := .wrsp) (n := 0) hok hphase hin).trans ?_
    rw [if_neg hp]
    simp [State.run, Transaction.effect, Transaction.events, Transaction.recvAnswers, byteAnswers, hp,
      PagedCommand.opcode]

/-- At most the command byte, the page index and nine sends, or eight receives and none that fails (R118). -/
theorem Transaction.answers_length_le {t : Transaction} (pages : Nat) (hwf : t.wellFormed = true) :
    (t.answers pages).length ≤ 11 := by
  simp only [Transaction.answers, List.length_append, List.length_map]
  cases t with
  | rdsp p failAt =>
    obtain ⟨m, a, hm, -, hsends⟩ := sendAnswers_eq failAt
    simp only [Transaction.recvAnswers, Transaction.sendAnswers, byteAnswers, hsends]
    have hsent : (if p.toNat < pages then List.replicate m SendAnswer.ok ++ [a] else []).length ≤ 9 := by
      split_ifs
      · rw [List.length_append, List.length_replicate, List.length_singleton]
        omega
      · exact Nat.zero_le 9
    exact Nat.add_le_add_left hsent 2
  | wrsp p data =>
    have hlen : data.length ≤ 8 := by simpa [Transaction.wellFormed] using hwf
    have hdata : (if p.toNat < pages then dataAnswers 0 data else []).length ≤ 9 := by
      split_ifs
      · exact (length_dataAnswers_le 0 data).trans (by omega)
      · exact Nat.zero_le 9
    have hrecv : (Transaction.wrsp p data).recvAnswers pages = .byte 0x4E#8 :: .byte p ::
        if p.toNat < pages then dataAnswers 0 data else [] := by
      simp [Transaction.recvAnswers, byteAnswers, dataAnswers]
    rw [hrecv]
    simp only [Transaction.sendAnswers, List.length_cons, List.length_nil]
    omega
  | _ => simp [Transaction.recvAnswers, Transaction.sendAnswers, byteAnswers]

end

end

/-- Settles O49: a complete command runs in two steps, a paged one goes through its index step and its data phase, and a
failed receive ends either. -/
theorem transactionsRunAsOneEffect : Obligations.TransactionsRunAsOneEffect := by
  intro s t rest hok hphase hwf hin
  refine ⟨Transaction.answers_length_le _ hwf, ?_⟩
  cases t with
  | convt => exact State.run_complete hok hphase hin rfl (exec_convt_of_cmd hok rfl)
  | convv => exact State.run_complete hok hphase hin rfl (exec_convv_of_cmd hok rfl)
  | cmd c =>
    have hc : c ∉ assignedOpcodes := by simpa [Transaction.wellFormed] using hwf
    have hshown := List.append_assoc s.trace [.recv (.byte c)] [.report c]
    rw [Transaction.after_eq]
    exact hshown ▸ State.run_complete hok hphase hin (decodeCommand_of_unassigned hc) (exec_cmd_of_cmd c rfl)
  | cpsp p => exact run_inert (c := .cpsp) hok hphase rfl hin
  | recallMem p => exact run_inert (c := .recallMem) hok hphase rfl hin
  | rdsp p failAt => exact run_rdsp p failAt hok hphase hin
  | wrsp p data => exact run_wrsp p data hok hphase (by simpa [Transaction.wellFormed] using hwf) hin
  | commandFail => exact run_commandFail hok hphase hin
  | indexFail c => exact run_indexFail c hok hphase hin

end Sys2Proof.Machine
end

section
/-! SUPPORT. Noninterference: a relation between states that keeps what a step reads, and that every named update keeps,
is kept by the step. Two such relations: states that differ in what nothing observes, and states that differ in the
checksum function and the cached checksums (10_state.md R21, R38; 41_memory_store.md R140). -/

namespace Sys2Proof.Machine

/-! ### What a relation has to keep -/

/-- The two states agree on all that decides a step but for the checksums. -/
structure State.SameView (s u : State) : Prop where
  pageCount : u.cfg.pageCount = s.cfg.pageCount
  factoryImage : u.cfg.factoryImage = s.cfg.factoryImage
  tempLsbMask : u.cfg.tempLsbMask = s.cfg.tempLsbMask
  mem : u.mem = s.mem
  vadReg : u.vadReg = s.vadReg
  vddReg : u.vddReg = s.vddReg
  phase : u.phase = s.phase
  inputs : u.inputs = s.inputs

/-- The relation is kept by every named update of the state, and by the two events that show a checksum. -/
structure Simulation (R : State → State → Prop) : Prop where
  view {s u : State} : R s u → s.SameView u
  setPhase {s u : State} (ph : Phase) : R s u → R (s.setPhase ph) (u.setPhase ph)
  takeInput {s u : State} : R s u → R s.takeInput u.takeInput
  emit {s u : State} (e : Event) : R s u → R (s.emit e) (u.emit e)
  writeByte {s u : State} (a : Nat) (b : Byte) : R s u → R (s.writeByte a b) (u.writeByte a b)
  recompute {s u : State} {p : Nat} : p < s.cfg.pageCount → R s u → R (s.recompute p) (u.recompute p)
  setVad {s u : State} (h : Half) : R s u → R (s.setVad h) (u.setVad h)
  setVdd {s u : State} (h : Half) : R s u → R (s.setVdd h) (u.setVdd h)
  sendChecksum {s u : State} {p : Nat} (a : SendAnswer) : p < s.cfg.pageCount → R s u →
    R (s.emit (.send (s.checksum p) a)) (u.emit (.send (u.checksum p) a))
  answerChecksum {s u : State} {p : Nat} : p < s.cfg.pageCount → R s u →
    R (s.answer (.checksumOf p) (.checksum (s.checksum p))) (u.answer (.checksumOf p) (.checksum (u.checksum p)))

/-- The same outcome, with related next states. -/
inductive OutcomeRel (R : State → State → Prop) : Result → Result → Prop
  | next {s u : State} (h : R s u) : OutcomeRel R (.next s) (.next u)
  | fault (r : Fault) : OutcomeRel R (.fault r) (.fault r)
  | refused (r : Refusal) : OutcomeRel R (.refused r) (.refused r)

theorem OutcomeRel.exists_next {R : State → State → Prop} {t : State} {r : Result} (h : OutcomeRel R (.next t) r) :
    ∃ u, r = .next u ∧ R t u := by
  cases h with
  | next h => exact ⟨_, rfl, h⟩

/-- Where the relation is the graph of a change of state, the outcome is the same change of the next state. -/
theorem OutcomeRel.eq_mapNext {f : State → State} {r r' : Result} (h : OutcomeRel (fun s u => u = f s) r r') :
    r' = mapNext f r := by
  cases h with
  | next h => exact congrArg Host.Outcome.next h
  | fault | refused => rfl

section

variable {R : State → State → Prop} {s u : State}

/-! ### Reads -/

theorem State.SameView.readByte (h : s.SameView u) (a : Nat) : u.readByte a = s.readByte a := by
  simp only [State.readByte, Memory.read, resetByte, h.mem, h.factoryImage]

theorem State.SameView.readBytes (h : s.SameView u) (a n : Nat) : u.readBytes a n = s.readBytes a n :=
  List.map_congr_left fun x _ => h.readByte x

theorem State.SameView.memSize (h : s.SameView u) : u.cfg.memSize = s.cfg.memSize := by
  rw [Config.memSize, h.pageCount, Config.memSize]

theorem State.SameView.fitting (h : s.SameView u) (pos len : Nat) : u.fitting pos len = s.fitting pos len := by
  rw [State.fitting, h.memSize, State.fitting]

theorem State.SameView.selectedVoltage (h : s.SameView u) : u.selectedVoltage = s.selectedVoltage := by
  have had : u.ad = s.ad := by
    simp only [State.ad, State.configByte, h.readByte]
  rw [State.selectedVoltage, had, h.vadReg, h.vddReg, State.selectedVoltage]

theorem State.SameView.pageCountOk (h : s.SameView u) : u.cfg.pageCountOk = s.cfg.pageCountOk := by
  simp only [Config.pageCountOk, h.pageCount]

theorem State.SameView.imageOk (h : s.SameView u) : u.cfg.imageOk = s.cfg.imageOk := by
  simp only [Config.imageOk, h.memSize, h.factoryImage]

theorem State.SameView.pageValid (h : s.SameView u) (p : Byte) : u.pageValid p = s.pageValid p := by
  simp only [State.pageValid, h.pageCount]

/-! ### Updates made of the named ones -/

theorem OutcomeRel.withVoltage (v : Int) {k k' : Half → Result} (hk : ∀ x, OutcomeRel R (k x) (k' x)) :
    OutcomeRel R (withVoltage v k) (withVoltage v k') := by
  unfold Machine.withVoltage
  split
  · exact hk _
  · exact .refused _

variable (hR : Simulation R)

include hR

theorem Simulation.received (a : RecvAnswer) (h : R s u) : R (s.received a) (u.received a) :=
  hR.emit _ (hR.takeInput h)

theorem Simulation.writeHalf (a : Nat) (v : Half) (h : R s u) : R (s.writeHalf a v) (u.writeHalf a v) :=
  hR.writeByte _ _ (hR.writeByte _ _ h)

theorem Simulation.storeFromBus (a : Nat) (b : Byte) (h : R s u) : R (s.storeFromBus a b) (u.storeFromBus a b) := by
  unfold State.storeFromBus
  split
  · exact h
  · exact hR.writeByte _ _ h

theorem Simulation.storeMeasurement (a : Nat) (bytes : Byte × Byte) (hp : 0 < s.cfg.pageCount) (h : R s u) :
    R (s.storeMeasurement a bytes) (u.storeMeasurement a bytes) :=
  hR.recompute hp (hR.writeByte _ _ (hR.writeByte _ _ h))

theorem Simulation.writeBytes (a : Nat) (bs : List Byte) (h : R s u) : R (s.writeBytes a bs) (u.writeBytes a bs) := by
  induction bs generalizing s u a with
  | nil => exact h
  | cons b bs ih => exact ih (a + 1) (hR.writeByte a b h)

theorem Simulation.recomputePages (p n : Nat) (hp : p + n ≤ s.cfg.pageCount) (h : R s u) :
    R (s.recomputePages p n) (u.recomputePages p n) := by
  induction n generalizing s u p with
  | zero => exact h
  | succ n ih => exact ih (p + 1) (by rw [State.recompute_cfg]; omega) (hR.recompute (by omega) h)

theorem Simulation.recomputeTouched (pos n : Nat) (hend : pos + n ≤ 8 * s.cfg.pageCount) (h : R s u) :
    R (s.recomputeTouched pos n) (u.recomputeTouched pos n) := by
  unfold State.recomputeTouched
  split
  · exact h
  · refine hR.recomputePages _ _ ?_ h
    simp only [Nat.shiftRight_eq_div_pow]
    omega

/-- The response shows page bytes, which the two states share, and last a checksum. -/
theorem Simulation.sent {p : Byte} (k : Fin 9) (a : SendAnswer) (hp : p.toNat < s.cfg.pageCount) (h : R s u) :
    R (s.sent (s.responseByte p k) a) (u.sent (u.responseByte p k) a) := by
  unfold State.responseByte
  split
  · rw [(hR.view h).readByte]
    exact hR.emit _ (hR.takeInput h)
  · exact hR.sendChecksum a hp (hR.takeInput h)

/-! ### Guards -/

theorem Simulation.withPage (p : Nat) {k : State → Result} (h : R s u)
    (hk : p < s.cfg.pageCount → OutcomeRel R (k s) (k u)) : OutcomeRel R (withPage p s k) (withPage p u k) := by
  unfold Machine.withPage
  rw [(hR.view h).pageCount]
  split
  · exact hk ‹_›
  · exact .fault _

theorem Simulation.inPhase (ph : Phase) {k : State → Result} (h : R s u)
    (hk : s.phase = ph → OutcomeRel R (k s) (k u)) : OutcomeRel R (inPhase ph s k) (inPhase ph u k) := by
  unfold Machine.inPhase
  rw [(hR.view h).phase]
  split
  · exact hk ‹_›
  · exact .refused _

theorem Simulation.selectPage (p : Byte) (ph : Phase) (h : R s u) :
    OutcomeRel R (selectPage p ph s) (selectPage p ph u) := by
  unfold Machine.selectPage
  rw [(hR.view h).pageValid]
  split
  · exact .next (hR.setPhase _ h)
  · exact .next (hR.setPhase _ h)

/-! ### The commands -/

theorem Simulation.sendStep (p : Byte) (k : Fin 9) (hp : p.toNat < s.cfg.pageCount) (h : R s u) :
    OutcomeRel R (sendStep p k s) (sendStep p k u) := by
  unfold Machine.sendStep
  rw [(hR.view h).inputs]
  split
  · exact .next (hR.setPhase _ (hR.sent k _ hp h))
  · exact .next (hR.setPhase _ (hR.sent k _ hp h))
  · exact .next h

theorem Simulation.dataStep (p : Byte) (k : Fin 8) (hp : p.toNat < s.cfg.pageCount) (h : R s u) :
    OutcomeRel R (dataStep p k s) (dataStep p k u) := by
  unfold Machine.dataStep
  rw [(hR.view h).inputs]
  split
  · next b _ _ =>
    have hstored := hR.storeFromBus (byteAddress p k.val) b (hR.received (.byte b) h)
    dsimp only
    split
    · exact .next (hR.setPhase _ hstored)
    · exact .next (hR.setPhase _ (hR.recompute (by simpa using hp) hstored))
  · exact .next (hR.setPhase _ (hR.recompute hp (hR.received .fail h)))
  · exact .next h

theorem Simulation.exec (i : Instr) (h : R s u) : OutcomeRel R (exec i s) (exec i u) := by
  cases i with
  | convt =>
    simp only [Machine.exec, execConvt]
    refine hR.inPhase .cmd h fun _ => ?_
    refine hR.withPage 0 h fun hp => ?_
    exact .next (hR.setPhase .idle (hR.recompute hp h))
  | convv =>
    simp only [Machine.exec, execConvv]
    refine hR.inPhase .cmd h fun _ => ?_
    refine hR.withPage 0 h fun hp => ?_
    rw [(hR.view h).selectedVoltage]
    exact .next (hR.setPhase .idle (hR.recompute hp (hR.writeHalf 3 _ h)))
  | cpsp p => exact hR.inPhase _ h fun _ => hR.selectPage p _ h
  | recallMem p => exact hR.inPhase _ h fun _ => hR.selectPage p _ h
  | cmd c =>
    simp only [Machine.exec, execCmd]
    refine hR.inPhase .cmd h fun _ => ?_
    exact .next (hR.setPhase .idle (hR.emit (.report c) h))
  | rdsp p =>
    simp only [Machine.exec, execRdsp, (hR.view h).phase]
    split
    · next q k hphase =>
      refine hR.inPhase (.rd p k) h fun hp => hR.withPage q.toNat h fun hq => ?_
      cases hphase.symm.trans hp
      exact hR.sendStep p k hq h
    · exact hR.inPhase _ h fun _ => hR.selectPage p _ h
  | wrsp p =>
    simp only [Machine.exec, execWrsp, (hR.view h).phase]
    split
    · next q k hphase =>
      refine hR.inPhase (.wr p k) h fun hp => hR.withPage q.toNat h fun hq => ?_
      cases hphase.symm.trans hp
      exact hR.dataStep p k hq h
    · exact hR.inPhase _ h fun _ => hR.selectPage p _ h

/-! ### The application port -/

theorem Simulation.answer (op : AppOp) (r : AppResult) (h : R s u) : R (s.answer op r) (u.answer op r) :=
  hR.emit _ h

theorem Simulation.readRange (pos len : Nat) (h : R s u) :
    OutcomeRel R (readRange pos len s) (readRange pos len u) := by
  unfold Machine.readRange
  rw [(hR.view h).memSize]
  split
  · exact .next (hR.answer _ _ h)
  · dsimp only
    rw [(hR.view h).fitting, (hR.view h).readBytes]
    exact .next (hR.answer _ _ h)

theorem Simulation.writeRange (pos : Nat) (bytes : List Byte) (h : R s u) :
    OutcomeRel R (writeRange pos bytes s) (writeRange pos bytes u) := by
  by_cases hpos : pos < s.cfg.memSize
  · have hend : pos + s.fitting pos bytes.length ≤ 8 * s.cfg.pageCount := by
      rw [← memSize_eq]
      exact State.fitting_end _ hpos.le
    rw [writeRange_of_lt bytes hpos, writeRange_of_lt bytes (by rwa [(hR.view h).memSize]), (hR.view h).fitting]
    refine .next (hR.answer _ _ (hR.recomputeTouched _ _ ?_ (hR.writeBytes _ _ h)))
    rwa [State.writeBytes_cfg]
  · unfold Machine.writeRange
    rw [(hR.view h).memSize, if_pos (by omega), if_pos (by omega)]
    exact .next (hR.answer _ _ h)

theorem Simulation.checksumOf (p : Nat) (h : R s u) : OutcomeRel R (checksumOf p s) (checksumOf p u) := by
  unfold Machine.checksumOf
  rw [(hR.view h).pageCount]
  split
  · exact .next (hR.answerChecksum ‹_› h)
  · exact .refused _

theorem Simulation.execApp (op : AppOp) (h : R s u) : OutcomeRel R (execApp op s) (execApp op u) := by
  have hview := hR.view h
  cases op with
  | setTemperatureReal x =>
    cases x with
    | rational q =>
      simp only [Machine.execApp, setTemperatureReal]
      refine hR.withPage 0 h fun hp => ?_
      rw [hview.tempLsbMask]
      exact .next (hR.answer _ _ (hR.storeMeasurement 1 _ hp h))
    | notRational => exact .refused _
  | setTemperatureInt n =>
    simp only [Machine.execApp, setTemperatureInt]
    refine hR.withPage 0 h fun hp => ?_
    exact .next (hR.answer _ _ (hR.storeMeasurement 1 _ hp h))
  | getTemperature =>
    simp only [Machine.execApp, getTemperature]
    refine hR.withPage 0 h fun _ => ?_
    rw [hview.readByte]
    exact .next (hR.answer _ _ h)
  | setVADVoltage v => exact OutcomeRel.withVoltage v fun x => .next (hR.answer _ _ (hR.setVad _ h))
  | getVADVoltage =>
    simp only [Machine.execApp, getVADVoltage, hview.vadReg]
    exact .next (hR.answer _ _ h)
  | setVDDVoltage v => exact OutcomeRel.withVoltage v fun x => .next (hR.answer _ _ (hR.setVdd _ h))
  | getVDDVoltage =>
    simp only [Machine.execApp, getVDDVoltage, hview.vddReg]
    exact .next (hR.answer _ _ h)
  | setCurrent i =>
    simp only [Machine.execApp, setCurrent]
    split
    · refine hR.withPage 0 h fun hp => ?_
      exact .next (hR.answer _ _ (hR.storeMeasurement 5 _ hp h))
    · exact .refused _
  | getCurrent =>
    simp only [Machine.execApp, getCurrent]
    refine hR.withPage 0 h fun _ => ?_
    rw [hview.readByte, hview.readByte]
    exact .next (hR.answer _ _ h)
  | readRange pos len => exact hR.readRange pos len h
  | writeRange pos bytes => exact hR.writeRange pos bytes h
  | checksumOf p => exact hR.checksumOf p h

/-! ### The step -/

theorem Simulation.fetchCommand (a : RecvAnswer) (h : R s u) :
    OutcomeRel R (fetchCommand a s) (fetchCommand a u) := by
  have hreceived := hR.received a h
  cases a with
  | fail => exact .next (hR.setPhase .idle hreceived)
  | byte b =>
    simp only [Machine.fetchCommand]
    split
    · exact hR.exec _ hreceived
    · exact .next (hR.setPhase _ hreceived)

theorem Simulation.fetchIndex (c : PagedCommand) (a : RecvAnswer) (h : R s u) :
    OutcomeRel R (fetchIndex c a s) (fetchIndex c a u) := by
  have hreceived := hR.received a h
  cases a with
  | fail => exact .next (hR.setPhase .idle hreceived)
  | byte p => exact hR.exec _ hreceived

theorem Simulation.recvStep (a : RecvAnswer) (h : R s u) : OutcomeRel R (recvStep a s) (recvStep a u) := by
  unfold Machine.recvStep
  rw [(hR.view h).phase]
  split
  · exact hR.fetchCommand a h
  · exact hR.fetchIndex _ a h
  · exact hR.exec _ h
  · exact .next (hR.takeInput h)
  · exact .next (hR.takeInput h)

theorem Simulation.sendAnswerStep (h : R s u) : OutcomeRel R (sendAnswerStep s) (sendAnswerStep u) := by
  unfold Machine.sendAnswerStep
  rw [(hR.view h).phase]
  split
  · exact hR.exec _ h
  all_goals exact .next (hR.takeInput h)

theorem Simulation.portStep (h : R s u) : OutcomeRel R (portStep s) (portStep u) := by
  unfold Machine.portStep startStep appStep
  rw [(hR.view h).inputs, (hR.view h).phase]
  split
  · exact .next h
  · split
    · exact .next (hR.setPhase _ (hR.takeInput h))
    · exact .refused _
  · split
    · exact hR.execApp _ (hR.takeInput h)
    · exact .refused _
  · exact hR.recvStep _ h
  · exact hR.sendAnswerStep h

/-- A relation kept by the named updates is kept by the step, with the same fault or refusal where there is one. -/
theorem Simulation.step (h : R s u) : OutcomeRel R (step s) (step u) := by
  unfold Machine.step blockStep
  rw [(hR.view h).pageCountOk, (hR.view h).imageOk]
  split
  · exact .refused _
  · split
    · exact .refused _
    · exact hR.portStep h

end

/-! ### What nothing observes -/

section

variable (spare family : Byte) (serial : Vector Byte 7)

theorem State.checksum_withUnobserved {s : State} {p : Nat} (hp : p < s.cfg.pageCount) :
    (s.withUnobserved spare family serial).checksum p = s.checksum p := by
  simp [State.checksum, State.withUnobserved, List.getD_eq_getElem?_getD, hp.ne']

/-- Every named update treats the spare slot and the identity data as not there: it recomputes and shows the checksums
of pages of the block only. -/
theorem withUnobserved_simulation : Simulation fun s u => u = s.withUnobserved spare family serial where
  view := by
    rintro s u rfl
    exact ⟨rfl, rfl, rfl, rfl, rfl, rfl, rfl, rfl⟩
  setPhase := by
    rintro s u ph rfl
    rfl
  takeInput := by
    rintro s u rfl
    rfl
  emit := by
    rintro s u e rfl
    rfl
  writeByte := by
    rintro s u a b rfl
    rfl
  recompute := by
    rintro s u p hp rfl
    simp only [State.withUnobserved, State.recompute]
    rw [List.set_comm _ _ (by omega)]
    rfl
  setVad := by
    rintro s u h rfl
    rfl
  setVdd := by
    rintro s u h rfl
    rfl
  sendChecksum := by
    rintro s u p a hp rfl
    rw [State.checksum_withUnobserved spare family serial hp]
    rfl
  answerChecksum := by
    rintro s u p hp rfl
    rw [State.checksum_withUnobserved spare family serial hp]
    rfl

end

/-- Settles O50: differing in what nothing observes is a relation that every named update keeps. -/
theorem spareSlotAndIdentityAreUnobserved : Obligations.SpareSlotAndIdentityAreUnobserved := by
  intro s spare family serial _
  exact ((withUnobserved_simulation spare family serial).step rfl).eq_mapNext

section

/-! ### What depends on the checksum function -/

/-- The two states are the same but for the checksum function, the cached checksums and the checksums shown. -/
structure SameButChecksums (f : ChecksumFn) (s u : State) : Prop where
  cfg : u.cfg = { s.cfg with crcFn := f }
  mem : u.mem = s.mem
  vadReg : u.vadReg = s.vadReg
  vddReg : u.vddReg = s.vddReg
  phase : u.phase = s.phase
  inputs : u.inputs = s.inputs
  reports : reportCount u.trace = reportCount s.trace

/-- Events that report alike keep the number of reports alike. -/
theorem SameButChecksums.emit {f : ChecksumFn} {s u : State} {e e' : Event} (h : SameButChecksums f s u)
    (he : reportCount [e'] = reportCount [e]) : SameButChecksums f (s.emit e) (u.emit e') :=
  ⟨h.cfg, h.mem, h.vadReg, h.vddReg, h.phase, h.inputs, by
    rw [State.emit_trace, State.emit_trace, reportCount_append, reportCount_append, h.reports, he]⟩

/-- Checksums are written by recomputations and shown in two events, neither of which is a report. -/
theorem sameButChecksums_simulation (f : ChecksumFn) : Simulation (SameButChecksums f) where
  view h := ⟨by rw [h.cfg], by rw [h.cfg], by rw [h.cfg], h.mem, h.vadReg, h.vddReg, h.phase, h.inputs⟩
  setPhase ph h := ⟨h.cfg, h.mem, h.vadReg, h.vddReg, rfl, h.inputs, h.reports⟩
  takeInput h := ⟨h.cfg, h.mem, h.vadReg, h.vddReg, h.phase, congrArg List.tail h.inputs, h.reports⟩
  emit e h := h.emit rfl
  writeByte a b h := ⟨h.cfg, by rw [State.writeByte_mem, h.cfg, h.mem]; rfl, h.vadReg, h.vddReg, h.phase, h.inputs,
    h.reports⟩
  recompute _ h := ⟨h.cfg, h.mem, h.vadReg, h.vddReg, h.phase, h.inputs, h.reports⟩
  setVad v h := ⟨h.cfg, h.mem, rfl, h.vddReg, h.phase, h.inputs, h.reports⟩
  setVdd v h := ⟨h.cfg, h.mem, h.vadReg, rfl, h.phase, h.inputs, h.reports⟩
  sendChecksum a _ h := h.emit rfl
  answerChecksum _ h := h.emit rfl

end

/-- Settles O51: the relation holds at the start whatever the checksums are, and the step keeps it. -/
theorem onlyChecksumsDependOnTheChecksumFunction : Obligations.OnlyChecksumsDependOnTheChecksumFunction := by
  intro s t f checksums hstep
  have hstart : SameButChecksums f s { s with cfg := { s.cfg with crcFn := f }, crc := checksums } :=
    ⟨rfl, rfl, rfl, rfl, rfl, rfl, rfl⟩
  have hsim := sameButChecksums_simulation f
  obtain ⟨u, hu, hrel⟩ := (hstep ▸ hsim.step hstart).exists_next
  exact ⟨u, hu, (hsim.view hrel).readByte, hrel.vadReg, hrel.vddReg, hrel.phase, hrel.inputs, hrel.cfg, hrel.reports⟩

end Sys2Proof.Machine
end
